-- ==== Sys2Proof/Word.lean ====
section
/-! DEFINITION. The one word of the engine: a byte of the program store, a tape cell, an output value. -/

namespace Sys2Proof

/-- Eight bits, unsigned (00_scope.md R6: `CELL_W` and `INSN_W` are both 8). -/
abbrev Byte := BitVec 8

end Sys2Proof
end

