-- ==== Sys2Proof/Machine/Opcodes.lean ====
section
/-! DEFINITION. The numeric values of the eight assigned instruction bytes, in one place (30_encoding.md R51; ASCII, which
the spec marks as general knowledge, 92_eei_decisions.md D17, log 8). Decode, encode, well-formedness and the scans all
read them from here. -/

namespace Sys2Proof.Opcode

/-- `>` -/
abbrev pinc : Byte := 0x3E#8
/-- `<` -/
abbrev pdec : Byte := 0x3C#8
/-- `+` -/
abbrev cinc : Byte := 0x2B#8
/-- `-` -/
abbrev cdec : Byte := 0x2D#8
/-- `.` -/
abbrev out : Byte := 0x2E#8
/-- `[` -/
abbrev jfz : Byte := 0x5B#8
/-- `]` -/
abbrev jbnz : Byte := 0x5D#8
/-- `,` -/
abbrev nopin : Byte := 0x2C#8

/-- The eight bytes with a row of their own; every other byte is a NOP (30_encoding.md R51). -/
def assigned : List Byte := [pinc, pdec, cinc, cdec, out, jfz, jbnz, nopin]

end Sys2Proof.Opcode
end

