-- ==== Sys2Proof/Syntax.lean ====
section
/-! DEFINITION. The instructions: one constructor per row of spec/opcode_table.json (30_encoding.md R51). -/

namespace Sys2Proof

/-- The nine operations of 30_encoding.md R51. No instruction has an operand (R50). The catch-all row NOP stands for
248 byte values; its constructor keeps the byte it was read from, so that an encoded instruction is the byte again
(log 9). -/
inductive Instr where
  /-- `>`: add 1 to the data pointer (41_pointer.md R67). -/
  | pinc
  /-- `<`: subtract 1 from the data pointer (41_pointer.md R68). -/
  | pdec
  /-- `+`: add 1 to the current cell, or append a cell (42_cell.md R70). -/
  | cinc
  /-- `-`: subtract 1 from the current cell, or append a cell (42_cell.md R71). -/
  | cdec
  /-- `.`: emit the current cell (43_output.md R73). -/
  | out
  /-- `[`: jump forward past the matching bracket if the current cell is zero (44_jump.md R74). -/
  | jfz
  /-- `]`: jump back past the matching bracket if the current cell is not zero (44_jump.md R75). -/
  | jbnz
  /-- `,`: the input operator, a no-op (40_dispatch.md R64). -/
  | nopin
  /-- Any other byte, a no-op (40_dispatch.md R63). -/
  | nop (byte : Byte)
  deriving DecidableEq, Repr

end Sys2Proof
end

