-- ==== Sys2Proof/WellFormed.lean ====
section
/-! DEFINITION. Which terms of `Instr` are instructions of the hardware. -/

namespace Sys2Proof

/-- A NOP is a byte that no other row of the opcode map takes (30_encoding.md R51); the other rows have no field that
could be wrong. -/
def Instr.wf : Instr → Bool
  | .pinc => true
  | .pdec => true
  | .cinc => true
  | .cdec => true
  | .out => true
  | .jfz => true
  | .jbnz => true
  | .nopin => true
  | .nop b => !Opcode.assigned.contains b

end Sys2Proof
end

