-- ==== Sys2Proof/Decode.lean ====
section
/-! DEFINITION. Decoding and encoding (30_encoding.md R49 to R54). Decoding a byte is total; the only input the decoder
rejects is one with no byte at all. -/

namespace Sys2Proof

/-- `Decode(b)` of 30_encoding.md R52, in the order the rule writes it. -/
def decode (b : Byte) : Instr :=
  if b = Opcode.pinc then .pinc
  else if b = Opcode.pdec then .pdec
  else if b = Opcode.cinc then .cinc
  else if b = Opcode.cdec then .cdec
  else if b = Opcode.out then .out
  else if b = Opcode.jfz then .jfz
  else if b = Opcode.jbnz then .jbnz
  else if b = Opcode.nopin then .nopin
  else .nop b

/-- Why a byte sequence is not an instruction. No byte value is illegal (30_encoding.md R53). -/
inductive DecodeError where
  /-- There is no byte to decode. -/
  | noByte
  deriving DecidableEq, Repr

/-- The instruction at the front of a byte sequence, with the bytes after it: every instruction is exactly one byte
(30_encoding.md R49, R54). -/
def decodeBytes : List Byte → Except DecodeError (Instr × List Byte)
  | [] => .error .noByte
  | b :: rest => .ok (decode b, rest)

/-- The byte of an instruction, from the opcode map of 30_encoding.md R51. -/
def encode : Instr → Byte
  | .pinc => 0x3E#8
  | .pdec => 0x3C#8
  | .cinc => 0x2B#8
  | .cdec => 0x2D#8
  | .out => 0x2E#8
  | .jfz => 0x5B#8
  | .jbnz => 0x5D#8
  | .nopin => 0x2C#8
  | .nop b => b

/-- The bytes of an instruction whose bits, numbered as spec/opcode_table.json numbers them, are the low `nbits` bits
of `w`: bit 0 is the least significant bit of the first byte, and bits above `nbits` are 0. At least one byte. -/
def tableBytes (nbits w : Nat) : List Byte :=
  (List.range (max 1 (nbits / 8))).map fun k => BitVec.ofNat 8 ((w % 2 ^ nbits) / 2 ^ (8 * k))

/-- What the decoder reads from those bytes. -/
def decodeTableWord (nbits w : Nat) : Option Instr :=
  match decodeBytes (tableBytes nbits w) with
  | .ok (i, _) => some i
  | .error _ => none

end Sys2Proof
end

