-- ==== Sys2Proof/Config.lean ====
section
/-! DEFINITION. The implementation parameters of the engine (00_scope.md R5). The spec leaves all three open, so a
model "takes them as arguments": `State.params` carries one `Params`, no transition changes it, and a statement about
every state is a statement about every choice of the parameters (log 2). The spec leaves no value of an instruction
open, so there is no free value here. -/

namespace Sys2Proof

/-- The open parameters of 00_scope.md R5, each a natural number or unbounded (`none`). -/
structure Params where
  /-- `PROG_MAX`: capacity of the program store in bytes. -/
  progMax : Option Nat
  /-- `TAPE_MAX`: capacity of the tape in cells. -/
  tapeMax : Option Nat
  /-- `DP_MAX`: largest value the data pointer can hold. -/
  dpMax : Option Nat
  deriving DecidableEq, Repr

/-- All parameters unbounded: the default the spec names for a model (92_eei_decisions.md D23, open parameters). -/
def Params.unbounded : Params := { progMax := none, tapeMax := none, dpMax := none }

end Sys2Proof
end

