-- ==== Sys2Proof/Machine/State.lean ====
section
/-! DEFINITION. The engine's state as plain data (10_state.md R11 to R27), its value after reset (R26), and the reasons
a call of the model can stop. -/

namespace Sys2Proof.Machine

/-- `run_state` (10_state.md R17). -/
inductive RunState where
  /-- After reset; the program is being loaded; no step is taken. -/
  | idle
  /-- Steps are taken. -/
  | running
  /-- Normal end: `pc` ran past the end of the program. -/
  | halted
  /-- Abnormal end: a fault was raised. -/
  | faulted
  deriving DecidableEq, Repr

/-- `fault_cause` (10_state.md R18, 60_exceptions.md R83), an enumeration as 92_eei_decisions.md D6 asks. -/
inductive FaultCause where
  | none
  | pointerUnderflow
  | unmatchedBracket
  | absentCellRead
  | pointerOverflow
  | tapeOverflow
  deriving DecidableEq, Repr

/-- `fault_dir` (10_state.md R18): which scan found no match. -/
inductive ScanDir where
  | forward
  | backward
  deriving DecidableEq, Repr

/-- What `raise` is given: one of the five faults of 60_exceptions.md R83, with the scan's direction where there is one.
Raising one is a transition of the engine (R91), not a stop of the model. -/
inductive EngineFault where
  | pointerUnderflow
  | unmatchedBracket (dir : ScanDir)
  | absentCellRead
  | pointerOverflow
  | tapeOverflow
  deriving DecidableEq, Repr

/-- One event on a port the host drives (10_state.md R25). -/
inductive HostEvent where
  /-- `rst`: put every piece of state to its reset value. -/
  | rst
  /-- `load` with `load_data`: append one byte to the program store. -/
  | load (data : Byte)
  /-- `run`: `Idle` to `Running`. -/
  | run
  deriving DecidableEq, Repr

/-- A space of bytes that exist at the addresses `0, 1, .. length - 1` and nowhere else; the byte at address `i` stands at
position `i`. An address at or beyond the length has no value (10_state.md R14, R16; 92_eei_decisions.md D24: "use
lists"). One space has one such list, so equal memories are equal data (log 4). -/
abbrev Memory := List Byte

/-- The architectural state (10_state.md R11, R20). `prog_len` and `tape_len` are the lengths of `prog` and `tape`. -/
structure State where
  /-- The model's own: the parameters of 00_scope.md R5 (log 2). -/
  params : Params
  /-- The model's own: what the host does before each coming step, `none` for nothing (log 1). -/
  hostScript : List (Option HostEvent)
  /-- `P`: the program store (R16). -/
  prog : Memory
  /-- `pc`: the program counter (R12). -/
  pc : Nat
  /-- `T`: the tape (R14). -/
  tape : Memory
  /-- `dp`: the data pointer (R13). -/
  dp : Nat
  /-- `run_state` (R17). -/
  runState : RunState
  /-- `fault_cause` (R18). -/
  faultCause : FaultCause
  /-- `fault_pc` (R18). -/
  faultPc : Nat
  /-- `fault_dir` (R18). -/
  faultDir : ScanDir
  /-- `load_error` (R19). -/
  loadError : Bool
  /-- `OUT`: the values emitted so far, oldest first (R20). -/
  out : List Byte
  deriving DecidableEq, Repr

/-- The engine right after reset (10_state.md R26, 70_reset_and_hazards.md R102), with unbounded parameters (log 2) and a
host that does nothing (log 1, log 7). -/
def State.reset : State where
  params := Params.unbounded
  hostScript := []
  prog := []
  pc := 0
  tape := []
  dp := 0
  runState := .idle
  faultCause := .none
  faultPc := 0
  faultDir := .forward
  loadError := false
  out := []

/-- Why a call of the model stops with a fault. The engine's own faults are transitions (60_exceptions.md R91) and are
not here. -/
inductive Fault where
  /-- A read of the program store at an index that does not exist, which breaks the precondition of `ProgRead`
  (20_memory.md R30). Raised by the meaning of JBNZ when it is called on a state whose `pc` is not below `prog_len`, and
  by the fetch if it were ever made there; the step tests `pc` first, so no step raises it. Safe. -/
  | programReadOutsideStore
  deriving DecidableEq, Repr

/-- Why a call of the model is refused. -/
inductive Refusal where
  /-- An instruction with no meaning, by its mnemonic. Raised by `exec` in an arm without a meaning; there is none. Safe. -/
  | notModelled (mnemonic : String)
  deriving DecidableEq, Repr

end Sys2Proof.Machine
end

