-- ==== Sys2Proof/Machine/Ops.lean ====
section
/-! DEFINITION. The named operations over the engine's state: the lengths, the access primitives of 20_memory.md, the
writes of `pc` and `dp`, the end of a step, and fault entry (60_exceptions.md R91). There is no return from a fault
(R93): only reset leaves `Faulted`, and it stands in Machine/HostPort.lean. -/

namespace Sys2Proof.Machine

/-- What every meaning, every step and `exec` answer. -/
abbrev Answer := Host.Outcome State Fault Refusal

/-! ### One address space -/

/-- The byte at address `i`; an address that is not listed has no value. -/
def Memory.read (m : Memory) (i : Nat) : Option Byte := m[i]?

/-- The byte at the existing address `i` becomes `v`; nothing is created. -/
def Memory.write (m : Memory) (i : Nat) (v : Byte) : Memory := m.set i v

/-- A new byte at the address just past the last one. -/
def Memory.append (m : Memory) (v : Byte) : Memory := m ++ [v]

/-- The same memory as address and byte pairs, lowest address first. -/
def Memory.cells (m : Memory) : List Host.Cell := m.mapIdx fun i b => (i, b)

/-- The canonical form: the addresses listed are exactly `0, 1, .. length - 1`, in that order. -/
def Memory.wf (m : Memory) : Bool := m.cells.map Prod.fst == List.range m.length

/-! ### Lengths and capacities -/

/-- `prog_len` (10_state.md R16). -/
def State.progLen (s : State) : Nat := s.prog.length

/-- `tape_len` (10_state.md R15). -/
def State.tapeLen (s : State) : Nat := s.tape.length

/-- `n = MAX`, false when the parameter is unbounded (00_scope.md R5). -/
def atMax (max : Option Nat) (n : Nat) : Bool := max == some n

/-! ### Access primitives -/

/-- `ProgRead(i)` (20_memory.md R30): partial, no byte outside `0 .. prog_len - 1`. -/
def State.progRead (s : State) (i : Nat) : Option Byte := s.prog.read i

/-- `TapeRead(i)` (20_memory.md R34): partial, an absent cell has no value. -/
def State.tapeRead (s : State) (i : Nat) : Option Byte := s.tape.read i

/-- `TapeWrite(i, v)` on an existing cell (20_memory.md R35). -/
def State.tapeWrite (s : State) (i : Nat) (v : Byte) : State := { s with tape := s.tape.write i v }

/-- `TapeAppend(v)`: the new cell is at index `tape_len`, never at `dp` (20_memory.md R36). -/
def State.tapeAppend (s : State) (v : Byte) : State := { s with tape := s.tape.append v }

/-- `Emit(v)` (20_memory.md R47). -/
def State.emit (s : State) (v : Byte) : State := { s with out := s.out ++ [v] }

/-! ### Registers -/

/-- `dp <- v` (10_state.md R13). -/
def State.setDp (s : State) (v : Nat) : State := { s with dp := v }

/-- `pc <- v` (10_state.md R12). -/
def State.setPc (s : State) (v : Nat) : State := { s with pc := v }

/-- `pc <- pc + 1` (40_dispatch.md R62). -/
def State.advance (s : State) : State := { s with pc := s.pc + 1 }

/-- `run_state <- v` (10_state.md R17). -/
def State.setRunState (s : State) (v : RunState) : State := { s with runState := v }

/-! ### Fault entry -/

/-- `code(F)` of 60_exceptions.md R91, as the enumeration of R83. -/
def EngineFault.cause : EngineFault → FaultCause
  | .pointerUnderflow => .pointerUnderflow
  | .unmatchedBracket _ => .unmatchedBracket
  | .absentCellRead => .absentCellRead
  | .pointerOverflow => .pointerOverflow
  | .tapeOverflow => .tapeOverflow

/-- `fault_dir` of 60_exceptions.md R91: backward only for an unmatched bracket of the backward scan. -/
def EngineFault.dir : EngineFault → ScanDir
  | .pointerUnderflow => .forward
  | .unmatchedBracket d => d
  | .absentCellRead => .forward
  | .pointerOverflow => .forward
  | .tapeOverflow => .forward

/-- `raise F` (60_exceptions.md R91), given the state at the START of the step: the fault record and `run_state` are
written and nothing else. -/
def State.raiseFault (s : State) (f : EngineFault) : State :=
  { s with faultCause := f.cause, faultPc := s.pc, faultDir := f.dir, runState := .faulted }

/-! ### How a step ends -/

/-- A step that completes ends with `pc <- pc + 1`, whatever the instruction (40_dispatch.md R62). -/
def complete (s : State) : Answer := .next s.advance

/-- A step that faults is fault entry instead of the rest of the step (60_exceptions.md R91). -/
def trap (f : EngineFault) (s : State) : Answer := .next (s.raiseFault f)

end Sys2Proof.Machine
end

