-- ==== Sys2Proof/Machine/Operands.lean ====
section
/-! DEFINITION. The one operand form of the instruction set: the current cell, `T[dp]` (30_encoding.md R50). -/

namespace Sys2Proof.Machine

/-- The current cell: it exists when `dp < tape_len` and is absent when `dp >= tape_len` (00_scope.md glossary). An absent
cell is never read as zero (20_memory.md R34). -/
def State.currentCell (s : State) : Option Byte := s.tapeRead s.dp

/-- An instruction that first reads the current cell raises `AbsentCellRead` when there is none, before anything else it
does (60_exceptions.md R86). -/
def withCurrentCell (s : State) (use : Byte → Answer) : Answer :=
  match s.currentCell with
  | none => trap .absentCellRead s
  | some v => use v

end Sys2Proof.Machine
end

