-- ==== Sys2Proof/Machine/Cell.lean ====
section
/-! DEFINITION. The cell instructions (42_cell.md): the cell ALU and the lazy growth controller. -/

namespace Sys2Proof.Machine

/-- `(v + 1) mod 256` (42_cell.md R72). -/
def cellAdd1 (v : Byte) : Byte := v + 1#8

/-- `(v + 255) mod 256`, that is `v - 1` modulo 256 (42_cell.md R71, R72). -/
def cellSub1 (v : Byte) : Byte := v + 255#8

/-- The growth controller: an absent current cell appends `v` at the end of the tape, or raises `TapeOverflow` when the
tape is full (20_memory.md R36). -/
def growTape (v : Byte) (s : State) : Answer :=
  if atMax s.params.tapeMax s.tapeLen then trap .tapeOverflow s
  else complete (s.tapeAppend v)

/-- The shape CINC and CDEC share: an existing current cell is rewritten in place, an absent one grows the tape. -/
def updateCell (f : Byte → Byte) (appended : Byte) (s : State) : Answer :=
  match s.currentCell with
  | some v => complete (s.tapeWrite s.dp (f v))
  | none => growTape appended s

/-- CINC, `+` (42_cell.md R70). -/
def execCinc (s : State) : Answer := updateCell cellAdd1 1#8 s

/-- CDEC, `-` (42_cell.md R71): on an absent cell it appends 1, not 255 (92_eei_decisions.md D9). -/
def execCdec (s : State) : Answer := updateCell cellSub1 1#8 s

end Sys2Proof.Machine
end

