-- ==== Sys2Proof/Machine/Flags.lean ====
section
/-! DEFINITION. Flag computations. The engine has no flags and no condition codes (10_state.md R22): the one condition of
the instruction set is the zero test of the jumps, which reads the cell directly and leaves nothing behind (44_jump.md
R74, R75), and neither wrap of the cell ALU is recorded (42_cell.md R70, R71). -/

namespace Sys2Proof.Machine

/-- The zero test of JFZ and JBNZ: any value `1 .. 255` is nonzero (44_jump.md R74). -/
def cellIsZero (v : Byte) : Bool := v == 0#8

end Sys2Proof.Machine
end

