-- ==== Sys2Proof/Machine/Scan.lean ====
section
/-! DEFINITION. The jump resolver's two linear scans with a nesting counter (44_jump.md R76, R77). Cursor and counter are
hidden registers that live for one scan (10_state.md R21): arguments here. The counter is the source's signed one (R80,
log 10). -/

namespace Sys2Proof.Machine

/-- How a scan ends. -/
inductive ScanResult where
  /-- The index of the matching bracket. -/
  | found (m : Nat)
  /-- The scan ran off its end of the program store. -/
  | unmatched
  /-- The cursor started outside the program store, against the precondition (20_memory.md R30). -/
  | outside
  deriving DecidableEq, Repr

/-- The loop of `ScanForward` (44_jump.md R76) over the bytes from the cursor `i` to the end of the store, with counter
`d`. The zero test is made only after a decrement. -/
def scanForwardFrom : List Byte → Nat → Int → ScanResult
  | [], _, _ => .unmatched
  | c :: cs, i, d =>
    if c = Opcode.jfz then scanForwardFrom cs (i + 1) (d + 1)
    else if c = Opcode.jbnz then
      if d - 1 = 0 then .found i else scanForwardFrom cs (i + 1) (d - 1)
    else scanForwardFrom cs (i + 1) d

/-- `ScanForward(p)` (44_jump.md R76): the scan includes the byte at `p`. -/
def scanForward (prog : Memory) (p : Nat) : ScanResult := scanForwardFrom (prog.drop p) p 0

/-- What one byte does to the counter of the backward scan (44_jump.md R77), and whether the scan returns there. -/
def backwardCount (c : Byte) (d : Int) : Int × Bool :=
  if c = Opcode.jbnz then (d + 1, false)
  else if c = Opcode.jfz then (d - 1, d - 1 = 0)
  else (d, false)

/-- The loop of `ScanBackward` (44_jump.md R77) with cursor `i` and counter `d`: the byte at `i` is examined before the
test `i = 0`. -/
def scanBackwardFrom (prog : Memory) : Nat → Int → ScanResult
  | 0, d =>
    match prog.read 0 with
    | none => .outside
    | some c => if (backwardCount c d).2 then .found 0 else .unmatched
  | i + 1, d =>
    match prog.read (i + 1) with
    | none => .outside
    | some c => if (backwardCount c d).2 then .found (i + 1) else scanBackwardFrom prog i (backwardCount c d).1

/-- `ScanBackward(p)` (44_jump.md R77): the scan includes the byte at `p`. -/
def scanBackward (prog : Memory) (p : Nat) : ScanResult := scanBackwardFrom prog p 0

end Sys2Proof.Machine
end

