-- ==== Sys2Proof/Machine/Jump.lean ====
section
/-! DEFINITION. The two conditional jumps (44_jump.md). `pc` keeps the index of the bracket while the scan runs and is
written once, so a scan that fails leaves it unchanged (R82). -/

namespace Sys2Proof.Machine

/-- The end of a jump that is taken: `pc` becomes the index of the matching bracket and then advances past it, or the scan
found no match (44_jump.md R74, R75, R81). -/
def jumpTo (dir : ScanDir) (s : State) : ScanResult → Answer
  | .found m => complete (s.setPc m)
  | .unmatched => trap (.unmatchedBracket dir) s
  | .outside => .fault .programReadOutsideStore

/-- JFZ, `[` (44_jump.md R74). -/
def execJfz (s : State) : Answer :=
  withCurrentCell s fun v =>
    if cellIsZero v then jumpTo .forward s (scanForward s.prog s.pc) else complete s

/-- JBNZ, `]` (44_jump.md R75). -/
def execJbnz (s : State) : Answer :=
  withCurrentCell s fun v =>
    if cellIsZero v then complete s else jumpTo .backward s (scanBackward s.prog s.pc)

end Sys2Proof.Machine
end

