-- ==== Sys2Proof/Machine/Nop.lean ====
section
/-! DEFINITION. The no-op instructions (40_dispatch.md R63, R64): `skip`, then the step's advance of `pc`. -/

namespace Sys2Proof.Machine

/-- NOPIN, `,` (40_dispatch.md R64): reads no input, touches no cell, cannot fault. -/
def execNopin (s : State) : Answer := complete s

/-- NOP, any other byte (40_dispatch.md R63): the same whichever byte it is. -/
def execNop (_byte : Byte) (s : State) : Answer := complete s

end Sys2Proof.Machine
end

