-- ==== Sys2Proof/Machine/Output.lean ====
section
/-! DEFINITION. The output instruction (43_output.md). -/

namespace Sys2Proof.Machine

/-- OUT, `.` (43_output.md R73): the raw 8-bit value, one transfer. -/
def execOut (s : State) : Answer := withCurrentCell s fun v => complete (s.emit v)

end Sys2Proof.Machine
end

