-- ==== Sys2Proof/Machine/Pointer.lean ====
section
/-! DEFINITION. The data-pointer instructions (41_pointer.md): exact, no wrap at either end (R69). -/

namespace Sys2Proof.Machine

/-- PINC, `>` (41_pointer.md R67). The tape is not touched and not looked at. -/
def execPinc (s : State) : Answer :=
  if atMax s.params.dpMax s.dp then trap .pointerOverflow s
  else complete (s.setDp (s.dp + 1))

/-- PDEC, `<` (41_pointer.md R68). -/
def execPdec (s : State) : Answer :=
  if s.dp = 0 then trap .pointerUnderflow s
  else complete (s.setDp (s.dp - 1))

end Sys2Proof.Machine
end

