-- ==== Sys2Proof/Machine/Dispatch.lean ====
section
/-! DEFINITION. `Execute(op)` (40_dispatch.md R61) with the advance of `pc` or the fault entry that ends the step. -/

namespace Sys2Proof.Machine

def exec (i : Instr) (s : State) : Host.Outcome State Fault Refusal :=
  match i with
  | .pinc => Sys2Proof.Machine.execPinc s
  | .pdec => Sys2Proof.Machine.execPdec s
  | .cinc => Sys2Proof.Machine.execCinc s
  | .cdec => Sys2Proof.Machine.execCdec s
  | .out => Sys2Proof.Machine.execOut s
  | .jfz => Sys2Proof.Machine.execJfz s
  | .jbnz => Sys2Proof.Machine.execJbnz s
  | .nopin => Sys2Proof.Machine.execNopin s
  | .nop byte => Sys2Proof.Machine.execNop byte s

end Sys2Proof.Machine
end

