-- ==== Sys2Proof/Machine/HostPort.lean ====
section
/-! DEFINITION. What the host's events do (10_state.md R25, 20_memory.md R31 and R32, 70_reset_and_hazards.md R102 to R106,
R113). -/

namespace Sys2Proof.Machine

/-- `rst` (70_reset_and_hazards.md R102): every item of state to its reset value, in every `run_state` (R103). The
parameters belong to the build and the script to the host, so both stay. -/
def hostReset (s : State) : State :=
  { State.reset with params := s.params, hostScript := s.hostScript }

/-- `load` (20_memory.md R31): in `Idle` the byte is appended; with the store full it is dropped and `load_error` is set
(R32); in any other state nothing changes. -/
def hostLoad (b : Byte) (s : State) : State :=
  match s.runState with
  | .idle =>
    if atMax s.params.progMax s.progLen then { s with loadError := true }
    else { s with prog := s.prog.append b }
  | .running => s
  | .halted => s
  | .faulted => s

/-- `run` (70_reset_and_hazards.md R105): accepted in `Idle` with `load_error = 0`, otherwise nothing changes. -/
def hostRun (s : State) : State :=
  match s.runState with
  | .idle => if s.loadError then s else s.setRunState .running
  | .running => s
  | .halted => s
  | .faulted => s

/-- One event on one of the ports the host drives. -/
def hostEvent (e : HostEvent) (s : State) : State :=
  match e with
  | .rst => hostReset s
  | .load b => hostLoad b s
  | .run => hostRun s

end Sys2Proof.Machine
end

