-- ==== Sys2Proof/Machine/Loop.lean ====
section
/-! DEFINITION. The dispatch loop (40_dispatch.md R58 to R62) and the turn order of host and engine. -/

namespace Sys2Proof.Machine

/-- Fetch (40_dispatch.md R60): the one byte at `pc`. -/
def State.fetch (s : State) : Option Byte := s.progRead s.pc

/-- `Step` of 40_dispatch.md R58, for `run_state = Running`: the halt test, the fetch, the decode and the dispatch. -/
def engineStep (s : State) : Answer :=
  if s.progLen ≤ s.pc then .next (s.setRunState .halted)
  else
    match s.fetch with
    | none => .fault .programReadOutsideStore
    | some b => exec (decode b) s

/-- The engine's turn: a step while `Running`; in `Idle`, `Halted` and `Faulted` no step is taken and every item keeps its
value (40_dispatch.md R58, 70_reset_and_hazards.md R106, log 3). -/
def engineTurn (s : State) : Answer :=
  match s.runState with
  | .running => engineStep s
  | .idle => .next s
  | .halted => .next s
  | .faulted => .next s

/-- One turn of the whole machine: the next entry of the host's script, taken off it, is either an event, which takes
effect before the engine's next step (70_reset_and_hazards.md R103), or nothing, and then it is the engine's turn
(log 1). -/
def turn (s : State) : Answer :=
  match s.hostScript with
  | [] => engineTurn s
  | none :: rest => engineTurn { s with hostScript := rest }
  | some e :: rest => .next (hostEvent e { s with hostScript := rest })

/-- The byte `b` at address `a`, the addresses below it filled with 0 where they do not exist yet. -/
def Memory.place (m : Memory) (a : Nat) (b : Byte) : Memory :=
  if a < m.length then m.write a b else m ++ List.replicate (a - m.length) 0#8 ++ [b]

/-- `s` with the byte `b` where the next step fetches, the engine running and the host silent, so that the very next
step fetches it. Stands for the load and the run strobe of 70_reset_and_hazards.md R104 (log 7). -/
def State.placeAtPc (s : State) (b : Byte) : State :=
  { s with prog := s.prog.place s.pc b, runState := .running, hostScript := [] }

end Sys2Proof.Machine
end

