-- ==== Sys2Proof/Machine/Step.lean ====
section
/-! DEFINITION. One step of the machine, and an instruction placed where the next step fetches. -/

namespace Sys2Proof.Machine

/-- One step: the host's next event, or the engine's turn (Machine/Loop.lean). -/
def step (s : State) : Host.Outcome State Fault Refusal := turn s

/-- `s` with the instruction whose bits are the low `nbits` bits of `w`, numbered as spec/opcode_table.json numbers them,
placed where the next step fetches. Every instruction is one byte (30_encoding.md R49). -/
def State.withFetchWord (s : State) (nbits w : Nat) : State :=
  match tableBytes nbits w with
  | [] => s
  | b :: _ => s.placeAtPc b

end Sys2Proof.Machine
end

