-- ==== Sys2Proof/Machine/Status.lean ====
section
/-! DEFINITION. The read-only `STATUS` word of the status port (10_state.md R23) with the numeric codes of R17 and R18
(92_eei_decisions.md D6), the widths derived from the parameters (00_scope.md R5), and what the hardware shows of a run
(70_reset_and_hazards.md R108). No instruction reads any of it. -/

namespace Sys2Proof.Machine

/-- The codes of `run_state` (10_state.md R17). -/
def RunState.code : RunState → BitVec 2
  | .idle => 0#2
  | .running => 1#2
  | .halted => 2#2
  | .faulted => 3#2

/-- The codes of `fault_cause` (60_exceptions.md R83). -/
def FaultCause.code : FaultCause → BitVec 3
  | .none => 0#3
  | .pointerUnderflow => 1#3
  | .unmatchedBracket => 2#3
  | .absentCellRead => 3#3
  | .pointerOverflow => 4#3
  | .tapeOverflow => 5#3

/-- The codes of `fault_dir` (10_state.md R18). -/
def ScanDir.code : ScanDir → BitVec 1
  | .forward => 0#1
  | .backward => 1#1

/-- The fields of the `STATUS` word (10_state.md R23), apart from one another: the packing order is not fixed by the
spec. -/
structure Status where
  state : BitVec 2
  faultCause : BitVec 3
  faultDir : BitVec 1
  loadError : BitVec 1
  /-- `PC_W` bits wide; kept as the number. -/
  faultPc : Nat
  deriving DecidableEq, Repr

/-- The level on the status port. -/
def State.status (s : State) : Status where
  state := s.runState.code
  faultCause := s.faultCause.code
  faultDir := s.faultDir.code
  loadError := BitVec.ofBool s.loadError
  faultPc := s.faultPc

/-- The least width `w` with `2 ^ w > n`. -/
def widthFor (n : Nat) : Nat := if n = 0 then 0 else n.log2 + 1

/-- `PC_W` (10_state.md R12), where `PROG_MAX` is finite. -/
def pcWidth (p : Params) : Option Nat := p.progMax.map widthFor

/-- `DEPTH_W`, where `PROG_MAX` is finite. DESIGN CHOICE (log 16), unsafe for a claim about the exact width: 00_scope.md R5
and 44_jump.md R80 ask only that it be wide enough for `0 .. PROG_MAX`, and the model takes the least such width. -/
def depthWidth (p : Params) : Option Nat := p.progMax.map widthFor

/-- What the hardware shows of a run: the emitted values in order, and the status word (70_reset_and_hazards.md R108). -/
structure Observation where
  out : List Byte
  status : Status
  deriving DecidableEq, Repr

/-- The observation a state shows. -/
def State.observe (s : State) : Observation where
  out := s.out
  status := s.status

end Sys2Proof.Machine
end

