-- ==== Sys2Proof/Safety.lean ====
section
/-! DEFINITION. What a safe state and the end of a run are, in the terms the statements use: the invariants of
10_state.md R24, reachability, and the ends of 70_reset_and_hazards.md R107. -/

namespace Sys2Proof.Safety

open Sys2Proof.Machine

/-! ### The invariants of one state -/

/-- `n` does not pass a parameter that may be unbounded. -/
def within (max : Option Nat) (n : Nat) : Bool :=
  match max with
  | none => true
  | some m => decide (n ≤ m)

/-- 10_state.md R24 item 1, its first half: `pc` never passes the end of the program. -/
abbrev PcInProgram (s : State) : Prop := s.pc ≤ s.progLen

/-- 10_state.md R24 items 1 to 3: program, data pointer and tape stay within the parameters. -/
abbrev WithinCapacity (s : State) : Prop :=
  within s.params.progMax s.progLen = true ∧ within s.params.dpMax s.dp = true ∧
    within s.params.tapeMax s.tapeLen = true

/-- 10_state.md R24 item 6. -/
abbrev HaltedAtEnd (s : State) : Prop := s.runState = .halted → s.pc = s.progLen

/-- 10_state.md R24 item 7 and R18: the fault record holds something exactly in `Faulted`, where it names the instruction
`pc` still stands at, and a backward direction belongs to an unmatched bracket. -/
abbrev FaultRecordSound (s : State) : Prop :=
  (s.faultCause = .none ↔ s.runState ≠ .faulted) ∧
    (s.runState = .faulted → s.faultPc = s.pc ∧ s.pc < s.progLen) ∧
    (s.runState ≠ .faulted → s.faultPc = 0) ∧
    (s.faultDir = .backward → s.faultCause = .unmatchedBracket)

/-- 10_state.md R19 and 70_reset_and_hazards.md R105: `load_error` stands only in `Idle`, with a full program store. -/
abbrev LoadErrorOnlyIdle (s : State) : Prop :=
  s.loadError = true → s.runState = .idle ∧ s.params.progMax = some s.progLen

/-- 70_reset_and_hazards.md R105: in `Idle` `pc` and `dp` are 0, the tape is empty, and nothing was emitted. -/
abbrev IdleIsFresh (s : State) : Prop :=
  s.runState = .idle → s.pc = 0 ∧ s.dp = 0 ∧ s.tape = [] ∧ s.out = []

/-- The invariant of every reachable state. -/
abbrev Inv (s : State) : Prop :=
  PcInProgram s ∧ WithinCapacity s ∧ HaltedAtEnd s ∧ FaultRecordSound s ∧ LoadErrorOnlyIdle s ∧ IdleIsFresh s

/-- In `Faulted` the state still shows why (60_exceptions.md R83, R91): the byte at `fault_pc` is an instruction that
raises the recorded cause, and its condition holds of the state, since fault entry changed nothing it depends on. -/
def FaultExplained (s : State) : Prop :=
  match s.faultCause with
  | .none => True
  | .pointerUnderflow => s.progRead s.faultPc = some Opcode.pdec ∧ s.dp = 0
  | .unmatchedBracket =>
    match s.faultDir with
    | .forward =>
      s.progRead s.faultPc = some Opcode.jfz ∧ s.currentCell = some 0#8 ∧
        scanForward s.prog s.faultPc = .unmatched
    | .backward =>
      s.progRead s.faultPc = some Opcode.jbnz ∧ (∃ v, s.currentCell = some v ∧ v ≠ 0#8) ∧
        scanBackward s.prog s.faultPc = .unmatched
  | .absentCellRead =>
    (s.progRead s.faultPc = some Opcode.out ∨ s.progRead s.faultPc = some Opcode.jfz ∨
        s.progRead s.faultPc = some Opcode.jbnz) ∧ s.tapeLen ≤ s.dp
  | .pointerOverflow => s.progRead s.faultPc = some Opcode.pinc ∧ s.params.dpMax = some s.dp
  | .tapeOverflow =>
    (s.progRead s.faultPc = some Opcode.cinc ∨ s.progRead s.faultPc = some Opcode.cdec) ∧ s.tapeLen ≤ s.dp ∧
      s.params.tapeMax = some s.tapeLen

/-! ### Runs -/

/-- The states a run starts from: the reset state, with any parameters and any host. -/
def start (p : Params) (script : List (Option HostEvent)) : State :=
  { State.reset with params := p, hostScript := script }

/-- `t` comes after zero or more steps from `s`. -/
inductive Reaches (s : State) : State → Prop where
  | refl : Reaches s s
  | step {t u : State} : Reaches s t → Machine.step t = .next u → Reaches s u

/-- The state after `k` steps is `t`. -/
def RunsTo (k : Nat) (s t : State) : Prop := Sys2Proof.core.run k s = .next t

/-- A run from `s` reaches `run_state` `r` first after exactly `k` steps, in the state `t`. -/
def FirstIn (r : RunState) (k : Nat) (s t : State) : Prop :=
  RunsTo k s t ∧ t.runState = r ∧ ∀ j < k, ∀ u, RunsTo j s u → u.runState ≠ r

/-- A run ends normally at the first state with `run_state = Halted` (70_reset_and_hazards.md R107). -/
def EndsNormally (k : Nat) (s t : State) : Prop := FirstIn .halted k s t

/-- A run ends abnormally at the first state with `run_state = Faulted` (70_reset_and_hazards.md R107). -/
def EndsAbnormally (k : Nat) (s t : State) : Prop := FirstIn .faulted k s t

/-- The instruction `i` executed `n` times in a row; what it answers when one of them does not answer a next state. -/
def execTimes (i : Instr) : Nat → State → Answer
  | 0, s => .next s
  | n + 1, s =>
    match exec i s with
    | .next t => execTimes i n t
    | .fault r => .fault r
    | .refused r => .refused r

/-- Executing `i` in `s` raises the engine fault `c`: fault entry is the next state. -/
def Raises (i : Instr) (s : State) (c : FaultCause) : Prop :=
  ∃ t, exec i s = .next t ∧ t.runState = .faulted ∧ t.faultCause = c

/-- `t` is `s` after fault entry with the cause `c` and the direction `d` (60_exceptions.md R91), written out. -/
def faultedFrom (s : State) (c : FaultCause) (d : ScanDir) : State :=
  { s with runState := .faulted, faultCause := c, faultPc := s.pc, faultDir := d }

/-- No `rst` in what the host is still going to do. -/
def NoReset (script : List (Option HostEvent)) : Prop := some HostEvent.rst ∉ script

/-! ### What the scans count (44_jump.md R78) -/

/-- `open(s)` of 44_jump.md R78. -/
def opens (bs : List Byte) : Nat := bs.count Opcode.jfz

/-- `close(s)` of 44_jump.md R78. -/
def closes (bs : List Byte) : Nat := bs.count Opcode.jbnz

/-- `P[a..b]`, both ends inclusive. -/
def slice (prog : List Byte) (a b : Nat) : List Byte := (prog.drop a).take (b + 1 - a)

end Sys2Proof.Safety
end

