-- ==== Sys2Proof/Certificates/Slice0/Obligations.lean ====
section
/-! DEFINITION. The statements for the provers, from the spec's numbered rules; OBLIGATIONS.json lists them. Next states are
written out as record updates, so a statement does not lean on the operations the meanings use. -/

open Sys2Proof Sys2Proof.Machine Sys2Proof.Safety

/-! ### Encoding (30_encoding.md) -/

/-- 30_encoding.md R52: the whole decode map, and that it looks at the one byte alone. (The byte that `nop` keeps is the
model's own, log 9; the rule's decode gives NOP.) -/
def Obligations.DecodeFollowsOpcodeMap : Prop :=
  decode 0x3E#8 = .pinc ∧ decode 0x3C#8 = .pdec ∧ decode 0x2B#8 = .cinc ∧ decode 0x2D#8 = .cdec ∧
    decode 0x2E#8 = .out ∧ decode 0x5B#8 = .jfz ∧ decode 0x5D#8 = .jbnz ∧ decode 0x2C#8 = .nopin ∧
    (∀ b : Byte, b ∉ [0x3E#8, 0x3C#8, 0x2B#8, 0x2D#8, 0x2E#8, 0x5B#8, 0x5D#8, 0x2C#8] → decode b = .nop b) ∧
    ∀ (b : Byte) (rest : List Byte), decodeBytes (b :: rest) = .ok (decode b, rest)

/-- Decoding an encoded well-formed instruction gives it back, with the bytes after it untouched (30_encoding.md sections 1
and 2). That this holds of NOP's bytes one by one rests on NOP keeping its byte: log 9, the model's choice. -/
def Obligations.DecodeEncodeRoundTrip : Prop :=
  ∀ (i : Instr) (rest : List Byte), i.wf = true → decodeBytes (encode i :: rest) = .ok (i, rest)

/-- Every byte is the encoding of exactly one well-formed instruction: the other direction. For the 248 NOP bytes this is
the model's choice (log 9): the spec's NOP has no operand (30_encoding.md R50), the model's keeps the byte it was read
from. -/
def Obligations.EveryByteIsOneInstruction : Prop :=
  ∀ b : Byte, (decode b).wf = true ∧ encode (decode b) = b ∧
    ∀ i : Instr, i.wf = true → encode i = b → i = decode b

/-- 30_encoding.md R53: every byte is an instruction; the 249 values that are not one of the seven operating
instructions take a step that only advances `pc`; and no byte faults in every state. -/
def Obligations.NoByteIsIllegal : Prop :=
  (∀ (b : Byte) (rest : List Byte), decodeBytes (b :: rest) = .ok (decode b, rest)) ∧
    (∀ b : Byte, b ∉ [0x3E#8, 0x3C#8, 0x2B#8, 0x2D#8, 0x2E#8, 0x5B#8, 0x5D#8] → ∀ s : State,
      exec (decode b) s = .next { s with pc := s.pc + 1 }) ∧
    ∀ b : Byte, ∃ s t : State, s.runState = .running ∧ s.prog[s.pc]? = some b ∧
      exec (decode b) s = .next t ∧ t.runState = .running

/-! ### The data-pointer instructions (41_pointer.md) -/

/-- 41_pointer.md R67 and 60_exceptions.md R87: PINC. -/
def Obligations.PincRule : Prop :=
  decode 0x3E#8 = .pinc ∧ ∀ s : State,
    (s.params.dpMax ≠ some s.dp → exec .pinc s = .next { s with dp := s.dp + 1, pc := s.pc + 1 }) ∧
    (s.params.dpMax = some s.dp → exec .pinc s = .next (faultedFrom s .pointerOverflow .forward))

/-- 41_pointer.md R68 and 60_exceptions.md R84: PDEC. -/
def Obligations.PdecRule : Prop :=
  decode 0x3C#8 = .pdec ∧ ∀ s : State,
    (s.dp ≠ 0 → exec .pdec s = .next { s with dp := s.dp - 1, pc := s.pc + 1 }) ∧
    (s.dp = 0 → exec .pdec s = .next (faultedFrom s .pointerUnderflow .forward))

/-- 41_pointer.md R69, its derived laws: each pointer instruction undoes the other where both complete. -/
def Obligations.PointerMovesCancel : Prop :=
  ∀ s t : State,
    (exec .pinc s = .next t → t.runState ≠ .faulted → exec .pdec t = .next { s with pc := s.pc + 2 }) ∧
    (exec .pdec s = .next t → t.runState ≠ .faulted → s.params.dpMax ≠ some t.dp →
      exec .pinc t = .next { s with pc := s.pc + 2 })

/-- 41_pointer.md R69: no other instruction writes `dp`, and these two move it by exactly 1 without a wrap. -/
def Obligations.OnlyPointerInstructionsMoveDp : Prop :=
  ∀ (i : Instr) (s t : State), exec i s = .next t → t.dp ≠ s.dp →
    (i = .pinc ∧ t.dp = s.dp + 1) ∨ (i = .pdec ∧ s.dp = t.dp + 1)

/-! ### The cell instructions (42_cell.md) -/

/-- 42_cell.md R70: CINC. -/
def Obligations.CincRule : Prop :=
  decode 0x2B#8 = .cinc ∧ ∀ s : State,
    (∀ h : s.dp < s.tape.length, exec .cinc s = .next
      { s with tape := s.tape.set s.dp (BitVec.ofNat 8 ((s.tape[s.dp].toNat + 1) % 256)), pc := s.pc + 1 }) ∧
    (s.tape.length ≤ s.dp → s.params.tapeMax ≠ some s.tape.length →
      exec .cinc s = .next { s with tape := s.tape ++ [1#8], pc := s.pc + 1 }) ∧
    (s.tape.length ≤ s.dp → s.params.tapeMax = some s.tape.length →
      exec .cinc s = .next (faultedFrom s .tapeOverflow .forward))

/-- 42_cell.md R71: CDEC. On an absent cell it appends 1, not 255. -/
def Obligations.CdecRule : Prop :=
  decode 0x2D#8 = .cdec ∧ ∀ s : State,
    (∀ h : s.dp < s.tape.length, exec .cdec s = .next
      { s with tape := s.tape.set s.dp (BitVec.ofNat 8 ((s.tape[s.dp].toNat + 255) % 256)), pc := s.pc + 1 }) ∧
    (s.tape.length ≤ s.dp → s.params.tapeMax ≠ some s.tape.length →
      exec .cdec s = .next { s with tape := s.tape ++ [1#8], pc := s.pc + 1 }) ∧
    (s.tape.length ≤ s.dp → s.params.tapeMax = some s.tape.length →
      exec .cdec s = .next (faultedFrom s .tapeOverflow .forward))

/-- 20_memory.md R36 and 60_exceptions.md R88: an append goes to index `tape_len`, never to `dp`; every other index reads
as before; the current cell is then the new one or still absent; and a full tape raises `TapeOverflow`. -/
def Obligations.AppendGoesToTheEndOfTheTape : Prop :=
  ∀ (i : Instr) (s : State), i = .cinc ∨ i = .cdec → s.tape.length ≤ s.dp →
    (s.params.tapeMax ≠ some s.tape.length → ∃ t, exec i s = .next t ∧
      t.tape.length = s.tape.length + 1 ∧ t.tapeRead s.tape.length = some 1#8 ∧
      (∀ a, a ≠ s.tape.length → t.tapeRead a = s.tapeRead a) ∧ t.dp = s.dp ∧
      t.currentCell = if s.dp = s.tape.length then some 1#8 else none) ∧
    (s.params.tapeMax = some s.tape.length → exec i s = .next (faultedFrom s .tapeOverflow .forward))

/-- 42_cell.md R72, its derived law: on an existing cell each of CINC and CDEC undoes the other. -/
def Obligations.CellStepsCancel : Prop :=
  ∀ s t : State, s.dp < s.tape.length →
    (exec .cinc s = .next t → exec .cdec t = .next { s with pc := s.pc + 2 }) ∧
    (exec .cdec s = .next t → exec .cinc t = .next { s with pc := s.pc + 2 })

/-- 42_cell.md R72, its derived law, for any number of repetitions: `n` CINCs add `n` modulo 256 to an existing cell, `n`
CDECs subtract `n` (so 256 of either restore it), and nothing else but `pc` changes. -/
def Obligations.RepeatedCellStepsCountModulo256 : Prop :=
  ∀ (n : Nat) (s : State) (h : s.dp < s.tape.length),
    execTimes .cinc n s = .next
      { s with tape := s.tape.set s.dp (BitVec.ofNat 8 ((s.tape[s.dp].toNat + n) % 256)), pc := s.pc + n } ∧
    execTimes .cdec n s = .next
      { s with tape := s.tape.set s.dp (BitVec.ofNat 8 ((s.tape[s.dp].toNat + 255 * n) % 256)), pc := s.pc + n }

/-- 20_memory.md R37: growth is one-way. Only CINC and CDEC grow the tape, by one cell of value 1, only when the current
cell is absent; no instruction and no host event but reset removes a cell. -/
def Obligations.TapeGrowsOneWay : Prop :=
  (∀ (i : Instr) (s t : State), exec i s = .next t →
    t.tape.length = s.tape.length ∨
      ((i = .cinc ∨ i = .cdec) ∧ s.tape.length ≤ s.dp ∧ t.tape = s.tape ++ [1#8])) ∧
    ∀ (e : HostEvent) (s : State), (hostEvent e s).tape = if e = .rst then [] else s.tape

/-! ### Output (43_output.md) -/

/-- 43_output.md R73: OUT. -/
def Obligations.OutRule : Prop :=
  decode 0x2E#8 = .out ∧ ∀ s : State,
    (∀ h : s.dp < s.tape.length,
      exec .out s = .next { s with out := s.out ++ [s.tape[s.dp]], pc := s.pc + 1 }) ∧
    (s.tape.length ≤ s.dp → exec .out s = .next (faultedFrom s .absentCellRead .forward))

/-- 20_memory.md R43 item 4 and R47: a step leaves the output as it is, appends the current cell when the instruction at
`pc` is OUT, or is a reset. That a reset is a step, delivered when it is the next entry of the host's script, is the
model's choice (log 1). -/
def Obligations.OutputOnlyGrows : Prop :=
  ∀ s t : State, Machine.step s = .next t →
    t.out = s.out ∨
      (∃ v, s.runState = .running ∧ s.prog[s.pc]? = some 0x2E#8 ∧ s.currentCell = some v ∧ t.out = s.out ++ [v]) ∨
      (s.hostScript.head? = some (some .rst) ∧ t.out = [])

/-- 10_state.md R20, "No instruction reads `OUT`": output emitted earlier changes nothing an instruction does. -/
def Obligations.OutputHistoryIsNotRead : Prop :=
  ∀ (i : Instr) (s : State) (earlier : List Byte),
    exec i { s with out := earlier ++ s.out } =
      match exec i s with
      | .next t => .next { t with out := earlier ++ t.out }
      | .fault r => .fault r
      | .refused r => .refused r

/-! ### The jumps (44_jump.md) -/

/-- 44_jump.md R74: JFZ, in terms of `ScanForward`. -/
def Obligations.JfzRule : Prop :=
  decode 0x5B#8 = .jfz ∧ ∀ s : State,
    (s.tape.length ≤ s.dp → exec .jfz s = .next (faultedFrom s .absentCellRead .forward)) ∧
    (∀ h : s.dp < s.tape.length,
      (s.tape[s.dp] ≠ 0#8 → exec .jfz s = .next { s with pc := s.pc + 1 }) ∧
      (s.tape[s.dp] = 0#8 →
        (∀ m, scanForward s.prog s.pc = .found m → exec .jfz s = .next { s with pc := m + 1 }) ∧
        (scanForward s.prog s.pc = .unmatched →
          exec .jfz s = .next (faultedFrom s .unmatchedBracket .forward))))

/-- 44_jump.md R75: JBNZ, in terms of `ScanBackward`. -/
def Obligations.JbnzRule : Prop :=
  decode 0x5D#8 = .jbnz ∧ ∀ s : State,
    (s.tape.length ≤ s.dp → exec .jbnz s = .next (faultedFrom s .absentCellRead .forward)) ∧
    (∀ h : s.dp < s.tape.length,
      (s.tape[s.dp] = 0#8 → exec .jbnz s = .next { s with pc := s.pc + 1 }) ∧
      (s.tape[s.dp] ≠ 0#8 →
        (∀ m, scanBackward s.prog s.pc = .found m → exec .jbnz s = .next { s with pc := m + 1 }) ∧
        (scanBackward s.prog s.pc = .unmatched →
          exec .jbnz s = .next (faultedFrom s .unmatchedBracket .backward))))

/-- 44_jump.md R78, first item: the loop of `ScanForward` finds the least index whose bracket counts from `p` balance. -/
def Obligations.ScanForwardFindsLeastBalance : Prop :=
  ∀ (prog : List Byte) (p : Nat), prog[p]? = some 0x5B#8 →
    (∀ m, scanForward prog p = .found m ↔
      p < m ∧ m < prog.length ∧ opens (slice prog p m) = closes (slice prog p m) ∧
        ∀ k, p < k → k < m → opens (slice prog p k) ≠ closes (slice prog p k)) ∧
    (∀ m, scanForward prog p = .found m → prog[m]? = some 0x5D#8) ∧
    (scanForward prog p = .unmatched ↔
      ∀ m, p < m → m < prog.length → opens (slice prog p m) ≠ closes (slice prog p m))

/-- 44_jump.md R78, second item: the loop of `ScanBackward` finds the greatest index whose bracket counts up to `p`
balance. -/
def Obligations.ScanBackwardFindsGreatestBalance : Prop :=
  ∀ (prog : List Byte) (p : Nat), prog[p]? = some 0x5D#8 →
    (∀ m, scanBackward prog p = .found m ↔
      m < p ∧ opens (slice prog m p) = closes (slice prog m p) ∧
        ∀ k, m < k → k < p → opens (slice prog k p) ≠ closes (slice prog k p)) ∧
    (∀ m, scanBackward prog p = .found m → prog[m]? = some 0x5B#8) ∧
    (scanBackward prog p = .unmatched ↔
      ∀ m, m < p → opens (slice prog m p) ≠ closes (slice prog m p))

/-- 44_jump.md R78, its remark on matched brackets, for every program: the backward scan from a bracket the forward scan
found leads back to where it began, and the other way round. -/
def Obligations.ScansAreInverse : Prop :=
  ∀ (prog : List Byte) (p m : Nat),
    (prog[p]? = some 0x5B#8 → scanForward prog p = .found m → scanBackward prog m = .found p) ∧
    (prog[p]? = some 0x5D#8 → scanBackward prog p = .found m → scanForward prog m = .found p)

/-- 44_jump.md R80: at every index a scan passes without stopping, the nesting counter lies between 1 and the number of
bytes visited. -/
def Obligations.NestingCounterStaysPositive : Prop :=
  ∀ (prog : List Byte) (p k : Nat),
    (prog[p]? = some 0x5B#8 → p ≤ k → k < prog.length → (∀ m, scanForward prog p = .found m → k < m) →
      closes (slice prog p k) + 1 ≤ opens (slice prog p k) ∧
        opens (slice prog p k) ≤ closes (slice prog p k) + (k + 1 - p)) ∧
    (prog[p]? = some 0x5D#8 → k ≤ p → (∀ m, scanBackward prog p = .found m → m < k) →
      opens (slice prog k p) + 1 ≤ closes (slice prog k p) ∧
        closes (slice prog k p) ≤ opens (slice prog k p) + (p + 1 - k))

/-- A bracket whose scan is made and whose partner the program does not hold faults with the scan's direction and leaves
`pc`; one whose scan is not made does not fault (60_exceptions.md section 1). The partner is told by the bracket counts
alone, which is the spec's own inference about the scans (44_jump.md section 3, R78, marked derived there). -/
def Obligations.UnbalancedScanFaults : Prop :=
  ∀ (s : State) (v : Byte), s.currentCell = some v →
    (s.prog[s.pc]? = some 0x5B#8 →
      (v = 0#8 → (∀ m, s.pc < m → m < s.prog.length → opens (slice s.prog s.pc m) ≠ closes (slice s.prog s.pc m)) →
        exec .jfz s = .next (faultedFrom s .unmatchedBracket .forward)) ∧
      (v ≠ 0#8 → exec .jfz s = .next { s with pc := s.pc + 1 })) ∧
    (s.prog[s.pc]? = some 0x5D#8 →
      (v ≠ 0#8 → (∀ m, m < s.pc → opens (slice s.prog m s.pc) ≠ closes (slice s.prog m s.pc)) →
        exec .jbnz s = .next (faultedFrom s .unmatchedBracket .backward)) ∧
      (v = 0#8 → exec .jbnz s = .next { s with pc := s.pc + 1 }))

/-- The model's own stop (log 5, the model's choice): JBNZ's meaning called, against the precondition of `ProgRead`
(20_memory.md R30), where `pc` is not an index of the program. The step never does this (`StepAlwaysAnswersNext`). -/
def Obligations.JbnzOutsideProgramStops : Prop :=
  ∀ (s : State) (v : Byte), s.currentCell = some v → v ≠ 0#8 → s.prog.length ≤ s.pc →
    exec .jbnz s = .fault .programReadOutsideStore

/-! ### The no-ops (40_dispatch.md) -/

/-- 40_dispatch.md R63: NOP, for each of the 248 byte values. (The byte that `nop` keeps is the model's own, log 9.) -/
def Obligations.NopRule : Prop :=
  ∀ b : Byte, b ∉ [0x3E#8, 0x3C#8, 0x2B#8, 0x2D#8, 0x2E#8, 0x5B#8, 0x5D#8, 0x2C#8] →
    decode b = .nop b ∧ ∀ s : State, exec (.nop b) s = .next { s with pc := s.pc + 1 }

/-- 40_dispatch.md R64: NOPIN, identical to NOP. -/
def Obligations.NopinRule : Prop :=
  decode 0x2C#8 = .nopin ∧ ∀ s : State, exec .nopin s = .next { s with pc := s.pc + 1 } ∧
    ∀ b : Byte, exec .nopin s = exec (.nop b) s

/-! ### Frames -/

/-- The instructions that store nothing leave every byte of the tape as it was, present or absent, and change only the
register each is about: `dp` for PINC and PDEC, `OUT` for OUT; the fault record and `run_state` change only by fault
entry, which leaves everything else. -/
def Obligations.NonStoringInstructionsFrame : Prop :=
  ∀ (i : Instr) (s t : State), i ≠ .cinc → i ≠ .cdec → exec i s = .next t →
    (∀ a, t.tapeRead a = s.tapeRead a) ∧ (∀ a, t.progRead a = s.progRead a) ∧
    t.params = s.params ∧ t.hostScript = s.hostScript ∧ t.loadError = s.loadError ∧
    (i ≠ .pinc → i ≠ .pdec → t.dp = s.dp) ∧ (i ≠ .out → t.out = s.out) ∧
    ((t.runState = s.runState ∧ t.faultCause = s.faultCause ∧ t.faultPc = s.faultPc ∧ t.faultDir = s.faultDir) ∨
      (t.runState = .faulted ∧ t.faultPc = s.pc ∧ t.pc = s.pc ∧ t.dp = s.dp ∧ t.out = s.out))

/-- CINC and CDEC change only the byte they store to, at `dp` where the current cell exists and at the end of the tape
where it does not; the fault record and `run_state` change only by fault entry, which stores nothing. -/
def Obligations.StoringInstructionsFrame : Prop :=
  ∀ (i : Instr) (s t : State), i = .cinc ∨ i = .cdec → exec i s = .next t →
    (∀ a, a ≠ (if s.dp < s.tapeLen then s.dp else s.tapeLen) → t.tapeRead a = s.tapeRead a) ∧
    (∀ a, t.progRead a = s.progRead a) ∧
    t.params = s.params ∧ t.hostScript = s.hostScript ∧ t.loadError = s.loadError ∧ t.dp = s.dp ∧ t.out = s.out ∧
    ((t.runState = s.runState ∧ t.faultCause = s.faultCause ∧ t.faultPc = s.faultPc ∧ t.faultDir = s.faultDir) ∨
      (t.runState = .faulted ∧ t.faultPc = s.pc ∧ t.pc = s.pc ∧ ∀ a, t.tapeRead a = s.tapeRead a))

/-! ### Faults (60_exceptions.md) -/

/-- 60_exceptions.md R83: the complete list of faults, with who raises each and when, what every one of them records
(`fault_pc` always, and a backward `fault_dir` for JBNZ's `UnmatchedBracket` alone, so JFZ's is forward) while `dp` and the
program stay readable, and the codes. -/
def Obligations.FaultListIsComplete : Prop :=
  (∀ (i : Instr) (s : State), s.runState ≠ .faulted →
    (Raises i s .pointerUnderflow ↔ i = .pdec ∧ s.dp = 0) ∧
    (Raises i s .unmatchedBracket ↔
      (i = .jfz ∧ s.currentCell = some 0#8 ∧ scanForward s.prog s.pc = .unmatched) ∨
      (i = .jbnz ∧ (∃ v, s.currentCell = some v ∧ v ≠ 0#8) ∧ scanBackward s.prog s.pc = .unmatched)) ∧
    (Raises i s .absentCellRead ↔ (i = .out ∨ i = .jfz ∨ i = .jbnz) ∧ s.tape.length ≤ s.dp) ∧
    (Raises i s .pointerOverflow ↔ i = .pinc ∧ s.params.dpMax = some s.dp) ∧
    (Raises i s .tapeOverflow ↔
      (i = .cinc ∨ i = .cdec) ∧ s.tape.length ≤ s.dp ∧ s.params.tapeMax = some s.tape.length) ∧
    ¬ Raises i s .none ∧
    ∀ t, exec i s = .next t → t.runState = .faulted →
      t.faultPc = s.pc ∧ (t.faultDir = .backward ↔ i = .jbnz ∧ t.faultCause = .unmatchedBracket) ∧
        t.dp = s.dp ∧ t.prog = s.prog) ∧
  (FaultCause.none.code.toNat = 0 ∧ FaultCause.pointerUnderflow.code.toNat = 1 ∧
    FaultCause.unmatchedBracket.code.toNat = 2 ∧ FaultCause.absentCellRead.code.toNat = 3 ∧
    FaultCause.pointerOverflow.code.toNat = 4 ∧ FaultCause.tapeOverflow.code.toNat = 5)

/-- 60_exceptions.md R86: OUT, JFZ and JBNZ on an absent cell fault before anything else, and never with a value; CINC and
CDEC do not raise this fault. -/
def Obligations.AbsentCellReadFaults : Prop :=
  ∀ s : State, s.tape.length ≤ s.dp →
    (∀ i : Instr, i = .out ∨ i = .jfz ∨ i = .jbnz →
      exec i s = .next (faultedFrom s .absentCellRead .forward)) ∧
    ∀ i : Instr, i = .cinc ∨ i = .cdec → exec i s ≠ .next (faultedFrom s .absentCellRead .forward)

/-- 60_exceptions.md R91: whatever instruction raises a fault, fault entry writes the record and `run_state` and nothing
else; the direction is backward only for JBNZ's unmatched bracket. -/
def Obligations.FaultEntryChangesOnlyTheRecord : Prop :=
  ∀ (i : Instr) (s t : State), s.runState ≠ .faulted → exec i s = .next t → t.runState = .faulted →
    t = faultedFrom s t.faultCause t.faultDir ∧ t.faultCause ≠ .none ∧
      (t.faultDir = .backward ↔ i = .jbnz ∧ t.faultCause = .unmatchedBracket)

/-! ### The step (40_dispatch.md) -/

/-- A step runs the decoded instruction (40_dispatch.md R60, R61): in `Running`, with nothing from the host, the byte at
`pc` decoded is executed, and the step adds nothing to it; a script entry that says the host does nothing is taken off
first (log 1, the model's choice). -/
def Obligations.StepRunsDecodedInstruction : Prop :=
  ∀ (s : State) (b : Byte), s.runState = .running → s.prog[s.pc]? = some b →
    (s.hostScript = [] → Machine.step s = exec (decode b) s) ∧
    ∀ rest, s.hostScript = none :: rest → Machine.step s = exec (decode b) { s with hostScript := rest }

/-- The halting step (40_dispatch.md section 1, R59): starting with `pc >= prog_len`, it writes `run_state <- Halted` and
nothing else of the engine; a script entry that says the host does nothing is taken off with it (log 1, the model's
choice). -/
def Obligations.HaltingStep : Prop :=
  ∀ s : State, s.runState = .running → s.prog.length ≤ s.pc →
    (s.hostScript = [] → Machine.step s = .next { s with runState := .halted }) ∧
    ∀ rest, s.hostScript = none :: rest → Machine.step s = .next { s with runState := .halted, hostScript := rest }

/-- 40_dispatch.md R62: every instruction that neither halts nor faults ends with `pc` one past where it stands, or one
past the bracket it jumped to, which lies on the proper side. -/
def Obligations.PcAfterEveryInstruction : Prop :=
  ∀ (i : Instr) (s t : State), s.runState ≠ .faulted → exec i s = .next t → t.runState ≠ .faulted →
    (i ≠ .jfz → i ≠ .jbnz → t.pc = s.pc + 1) ∧
    (i = .jfz → s.currentCell ≠ some 0#8 → t.pc = s.pc + 1) ∧
    (i = .jfz → s.currentCell = some 0#8 → ∃ m, scanForward s.prog s.pc = .found m ∧ t.pc = m + 1 ∧
      (s.prog[s.pc]? = some 0x5B#8 → s.pc < m)) ∧
    (i = .jbnz → s.currentCell = some 0#8 → t.pc = s.pc + 1) ∧
    (i = .jbnz → s.currentCell ≠ some 0#8 → ∃ m, scanBackward s.prog s.pc = .found m ∧ t.pc = m + 1 ∧
      (s.prog[s.pc]? = some 0x5D#8 → m < s.pc))

/-- The model's step is total: from every state, reachable or not, it answers a next state, never a fault or a refusal of
the model. The spec says so of `Running` (70_reset_and_hazards.md section 4). That the step answers a next state in `Idle`,
`Halted` and `Faulted` too, where the spec takes none (log 3), and when it delivers a host event (log 1), is the model's
choice. -/
def Obligations.StepAlwaysAnswersNext : Prop :=
  ∀ s : State, ∃ t, Machine.step s = .next t

/-- Outside `Idle` the program store does not change, whatever the engine or the host does, but for a reset (20_memory.md
section 2, R33; 10_state.md section 2, R16); no instruction writes it in any state. The step's clause covers every kind of
step, an instruction, the halt, a wait or a host event, under any host script whose next entry is no reset (log 1, the
model's choice). -/
def Obligations.ProgramStoreIsImmutable : Prop :=
  (∀ (i : Instr) (s t : State), exec i s = .next t → t.prog = s.prog) ∧
    ∀ s : State, s.runState ≠ .idle →
      (∀ t, s.hostScript.head? ≠ some (some .rst) → Machine.step s = .next t → t.prog = s.prog) ∧
      ∀ e : HostEvent, e ≠ .rst → (hostEvent e s).prog = s.prog

/-- 10_state.md R27: the parameters are no state: no step changes them. -/
def Obligations.ParametersNeverChange : Prop :=
  ∀ s t : State, Machine.step s = .next t → t.params = s.params

/-! ### Invariants (10_state.md R24) -/

/-- The invariant of 10_state.md R24, with the rest that the state's rules add to it, is kept by every step, host events
included (delivered from the script: log 1, the model's choice). -/
def Obligations.StepKeepsInv : Prop :=
  ∀ s t : State, Inv s → Machine.step s = .next t → Inv t

/-- Every step keeps that a fault record explains itself: from a state of the invariant in which the instruction the record
names raises the recorded cause in that very state, a step leads to such a state (60_exceptions.md R83, R91, R93); host events
included (log 1, the model's choice). -/
def Obligations.StepKeepsFaultExplained : Prop :=
  ∀ s t : State, Inv s → FaultExplained s → Machine.step s = .next t → FaultExplained t

/-- Both invariants hold of the reset state, whatever the parameters and the host. -/
def Obligations.ResetMeetsTheInvariants : Prop :=
  ∀ (p : Params) (script : List (Option HostEvent)), Inv (start p script) ∧ FaultExplained (start p script)

/-- 10_state.md R24: both invariants hold in every reachable state: from the reset state with any parameters, whatever the
host does. -/
def Obligations.ReachableStatesMeetTheInvariants : Prop :=
  ∀ (p : Params) (script : List (Option HostEvent)) (t : State), Reaches (start p script) t → Inv t ∧ FaultExplained t

/-- 10_state.md R24 item 8: `dp <= tape_len` is NOT an invariant: a step from a state that meets it, and the invariant,
reaches one that does not. -/
def Obligations.PointerMayPassTheTape : Prop :=
  ∃ s t : State, Inv s ∧ s.dp ≤ s.tape.length ∧ Machine.step s = .next t ∧ Inv t ∧ t.tape.length < t.dp

/-- 10_state.md R12 and 44_jump.md R80: `PC_W` is the least width that holds `0 .. PROG_MAX`, and it holds `pc` and
`fault_pc` in every state of the invariant; `DEPTH_W`, whose exact value is the model's choice (log 16), is wide
enough for the program's length, which bounds the nesting counter (`NestingCounterStaysPositive`). -/
def Obligations.RegistersFitTheirWidths : Prop :=
  ∀ (s : State) (n w d : Nat), Inv s → s.params.progMax = some n → pcWidth s.params = some w →
    depthWidth s.params = some d →
    (n < 2 ^ w ∧ ∀ v, v < w → 2 ^ v ≤ n) ∧ s.pc < 2 ^ w ∧ s.faultPc < 2 ^ w ∧ s.prog.length < 2 ^ d

/-! ### Reset, host and the end of a run (70_reset_and_hazards.md) -/

/-- 10_state.md R26: the reset values. (The two fields of the model's own are not the rule's.) -/
def Obligations.ResetValues : Prop :=
  State.reset.progLen = 0 ∧ (∀ i, State.reset.progRead i = none) ∧ State.reset.tapeLen = 0 ∧
    (∀ i, State.reset.tapeRead i = none) ∧ State.reset.dp = 0 ∧ State.reset.pc = 0 ∧
    State.reset.runState = .idle ∧ State.reset.faultCause = .none ∧ State.reset.faultPc = 0 ∧
    State.reset.faultDir = .forward ∧ State.reset.loadError = false ∧ State.reset.out = []

/-- A reset, in every state, puts every item of the engine to its reset value (70_reset_and_hazards.md section 1, R102).
That it leaves the parameters (log 2) and the rest of the host's script (log 1), which the model carries in its state, is
the model's choice. -/
def Obligations.ResetEventClearsEverything : Prop :=
  ∀ s : State,
    hostEvent .rst s = { params := s.params, hostScript := s.hostScript, prog := [], pc := 0, tape := [], dp := 0,
                         runState := .idle, faultCause := .none, faultPc := 0, faultDir := .forward,
                         loadError := false, out := [] }

/-- 20_memory.md R31 and R32: a load in `Idle` appends the byte when there is room, with a full store drops it and sets
`load_error`, and outside `Idle` is ignored. -/
def Obligations.LoadEventRule : Prop :=
  ∀ (s : State) (b : Byte),
    (s.runState = .idle → (∀ m, s.params.progMax = some m → s.prog.length < m) →
      hostEvent (.load b) s = { s with prog := s.prog ++ [b] }) ∧
    (s.runState = .idle → s.params.progMax = some s.prog.length →
      hostEvent (.load b) s = { s with loadError := true }) ∧
    (s.runState ≠ .idle → hostEvent (.load b) s = s)

/-- 70_reset_and_hazards.md R105: the run strobe. -/
def Obligations.RunStrobeRule : Prop :=
  ∀ s : State,
    (s.runState = .idle → s.loadError = false → hostEvent .run s = { s with runState := .running }) ∧
    (s.runState = .idle → s.loadError = true → hostEvent .run s = s) ∧
    (s.runState ≠ .idle → hostEvent .run s = s)

/-- 20_memory.md R29: the round trip. Loading a byte sequence, one event a byte, puts exactly those bytes, in order and
untransformed, after the ones loaded before, and changes nothing else. -/
def Obligations.LoadedBytesReadBack : Prop :=
  ∀ (bs : List Byte) (s : State), s.runState = .idle →
    (∀ m, s.params.progMax = some m → s.prog.length + bs.length ≤ m) →
    bs.foldl (fun u b => hostEvent (.load b) u) s = { s with prog := s.prog ++ bs } ∧
      ∀ k, (bs.foldl (fun u b => hostEvent (.load b) u) s).progRead (s.prog.length + k) = bs[k]?

/-- How the model delivers the host's events (log 1, the model's choice): the entry at the head of the script is taken off
it, and an event there takes effect before the engine's next step, in every `run_state`, a running engine included
(70_reset_and_hazards.md R103). -/
def Obligations.HostScriptIsDeliveredInOrder : Prop :=
  ∀ (s : State) (e : HostEvent) (rest : List (Option HostEvent)), s.hostScript = some e :: rest →
    Machine.step s = .next (hostEvent e { s with hostScript := rest })

/-- 70_reset_and_hazards.md R104: from any state, a reset, the loads of a program that fits, and a run strobe give the fresh
running engine with that program, each event taking one step of the model (log 1, the model's choice). -/
def Obligations.BootSequence : Prop :=
  ∀ (bs : List Byte) (s : State) (rest : List (Option HostEvent)),
    (∀ m, s.params.progMax = some m → bs.length ≤ m) →
    RunsTo (bs.length + 2)
      { s with hostScript := some .rst :: (bs.map (fun b => some (HostEvent.load b)) ++ some .run :: rest) }
      { State.reset with params := s.params, hostScript := rest, prog := bs, runState := .running }

/-- 70_reset_and_hazards.md R102, R108: nothing of a former run outlives a reset. Two engines of the same build that are
reset and then see the same host are in the same state, and show the same observation, after any number of steps. -/
def Obligations.ResetErasesHistory : Prop :=
  ∀ (k : Nat) (s s' t t' : State) (rest : List (Option HostEvent)), s.params = s'.params →
    RunsTo (k + 1) { s with hostScript := some .rst :: rest } t →
    RunsTo (k + 1) { s' with hostScript := some .rst :: rest } t' → t.observe = t'.observe ∧ t = t'

/-- 70_reset_and_hazards.md R113: the host never writes the tape, `dp`, `pc` or the output, nor the program of a non-`Idle`
engine, except by a reset. -/
def Obligations.HostEventsFrame : Prop :=
  ∀ (e : HostEvent) (s : State), e ≠ .rst →
    (∀ a, (hostEvent e s).tapeRead a = s.tapeRead a) ∧ (hostEvent e s).dp = s.dp ∧ (hostEvent e s).pc = s.pc ∧
      (hostEvent e s).out = s.out ∧ (hostEvent e s).faultCause = s.faultCause ∧
      (hostEvent e s).faultPc = s.faultPc ∧ (hostEvent e s).faultDir = s.faultDir ∧
      (s.runState ≠ .idle → hostEvent e s = s)

/-- 70_reset_and_hazards.md R106: `Halted` and `Faulted` are terminal: for any number of steps, with whatever the host
does but reset, every item of state keeps its value; and a reset leaves them for `Idle`. That the model's step answers the
same state there is its own choice (log 3), as is the script (log 1). -/
def Obligations.TerminalStatesKeepEverything : Prop :=
  ∀ s : State, s.runState = .halted ∨ s.runState = .faulted →
    (∀ (k : Nat) (t : State), NoReset s.hostScript → RunsTo k s t →
      t = { s with hostScript := s.hostScript.drop k }) ∧
    ∀ rest t, s.hostScript = some .rst :: rest → Machine.step s = .next t → t.runState = .idle

/-- In `Idle` the engine takes no step (40_dispatch.md section 1, R58): for as many turns as the host does nothing, at the
entries `none` of its script or past the script's end, every item of state keeps its value and only the script is
shorter. That the model's step answers the same state there is its own choice (log 3), as is the script (log 1). -/
def Obligations.IdleWaitsForTheHost : Prop :=
  ∀ (k : Nat) (s : State), s.runState = .idle → (∀ e ∈ s.hostScript.take k, e = none) →
    RunsTo k s { s with hostScript := s.hostScript.drop k }

/-- 70_reset_and_hazards.md R107: a run that ends ends one way only: `Halted` with `pc` at the end of the program, or
`Faulted`, and never both. -/
def Obligations.RunsEndOneWay : Prop :=
  ∀ (k j : Nat) (s t u : State), Inv s → NoReset s.hostScript → EndsNormally k s t →
    t.pc = t.prog.length ∧ t.faultCause = .none ∧ ¬ EndsAbnormally j s u

/-- 10_state.md R23 with the codes of R17 and R18: the status word. -/
def Obligations.StatusWordFields : Prop :=
  ∀ s : State,
    s.status.state.toNat =
      (match s.runState with | .idle => 0 | .running => 1 | .halted => 2 | .faulted => 3) ∧
    s.status.faultCause.toNat =
      (match s.faultCause with
        | .none => 0 | .pointerUnderflow => 1 | .unmatchedBracket => 2
        | .absentCellRead => 3 | .pointerOverflow => 4 | .tapeOverflow => 5) ∧
    s.status.faultDir.toNat = (match s.faultDir with | .forward => 0 | .backward => 1) ∧
    s.status.loadError.toNat = (if s.loadError then 1 else 0) ∧ s.status.faultPc = s.faultPc
end

