-- ==== Sys2Proof/Laws/Memory.lean ====
section
/-! SUPPORT. The laws of one address space: a read after a write, a read after an append, and the canonical form, which
every operation keeps and the reset state has. -/

namespace Sys2Proof.Machine

/-- An address at or beyond the length has no value (10_state.md R14, R16). -/
theorem Memory.read_eq_none_iff (m : Memory) (i : Nat) : m.read i = none ↔ m.length ≤ i := by
  simp [Memory.read]

/-- An address below the length holds the byte at that position. -/
theorem Memory.read_of_lt {m : Memory} {i : Nat} (h : i < m.length) : m.read i = some m[i] := by
  simp [Memory.read, h]

theorem Memory.lt_of_read {m : Memory} {i : Nat} {b : Byte} (h : m.read i = some b) : i < m.length := by
  by_contra hc
  rw [(Memory.read_eq_none_iff m i).mpr (by omega)] at h
  cases h

@[simp] theorem Memory.length_write (m : Memory) (i : Nat) (v : Byte) : (m.write i v).length = m.length := by
  simp [Memory.write]

@[simp] theorem Memory.length_append (m : Memory) (v : Byte) : (m.append v).length = m.length + 1 := by
  simp [Memory.append]

/-- A read after a write to the same existing address gives the value written (20_memory.md R35, R43 item 3). -/
theorem Memory.read_write_same {m : Memory} {i : Nat} (v : Byte) (h : i < m.length) :
    (m.write i v).read i = some v := by
  simp [Memory.read, Memory.write, h]

/-- A write leaves every other address alone (20_memory.md R35). -/
theorem Memory.read_write_other (m : Memory) {i j : Nat} (v : Byte) (h : j ≠ i) :
    (m.write i v).read j = m.read j := by
  simp [Memory.read, Memory.write, List.getElem?_set_ne h.symm]

/-- The appended byte stands at the old length (20_memory.md R36). -/
theorem Memory.read_append_end (m : Memory) (v : Byte) : (m.append v).read m.length = some v := by
  simp [Memory.read, Memory.append]

/-- An append leaves every other address as it was, present or absent (20_memory.md R36). -/
theorem Memory.read_append_other (m : Memory) {j : Nat} (v : Byte) (h : j ≠ m.length) :
    (m.append v).read j = m.read j := by
  rcases Nat.lt_or_gt_of_ne h with hlt | hgt
  · rw [Memory.read, Memory.append, List.getElem?_append_left hlt, Memory.read]
  · simp [Memory.read, Memory.append, hgt, Nat.le_of_lt hgt]

/-- Every memory is in the canonical form: a list of bytes has no other (log 4). -/
theorem Memory.wf_of_list (m : Memory) : m.wf = true := by
  have h : m.cells.map Prod.fst = List.range m.length := by
    apply List.ext_getElem <;> simp [Memory.cells]
  simp [Memory.wf, h]

/-- Every memory operation keeps the canonical form. -/
theorem Memory.wf_ops (m : Memory) (i : Nat) (v : Byte) :
    (m.write i v).wf = true ∧ (m.append v).wf = true ∧ (m.place i v).wf = true :=
  ⟨Memory.wf_of_list _, Memory.wf_of_list _, Memory.wf_of_list _⟩

/-- The memories of the reset state have the canonical form. -/
theorem State.reset_wf : State.reset.prog.wf = true ∧ State.reset.tape.wf = true := by decide

/-- The current cell exists exactly when `dp < tape_len` (00_scope.md glossary). -/
theorem State.currentCell_eq_none_iff (s : State) : s.currentCell = none ↔ s.tapeLen ≤ s.dp :=
  Memory.read_eq_none_iff s.tape s.dp

theorem State.currentCell_of_lt {s : State} (h : s.dp < s.tape.length) : s.currentCell = some s.tape[s.dp] :=
  Memory.read_of_lt h

theorem State.lt_of_currentCell {s : State} {v : Byte} (h : s.currentCell = some v) : s.dp < s.tapeLen :=
  Memory.lt_of_read h

/-- Placing a byte puts it at the address asked for. -/
theorem Memory.read_place (m : Memory) (a : Nat) (b : Byte) : (m.place a b).read a = some b := by
  by_cases h : a < m.length
  · simp [Memory.place, h, Memory.read_write_same]
  · have hl : (m ++ List.replicate (a - m.length) (0#8)).length = a := by simp; omega
    simp only [Memory.place, h, if_false, Memory.read]
    rw [List.getElem?_append_right (by omega)]
    simp [hl]

end Sys2Proof.Machine
end

