-- ==== Sys2Proof/Laws/State.lean ====
section
/-! SUPPORT. What each field of the state is after each update, one lemma a field, so that no later proof unfolds a
record update. -/

namespace Sys2Proof.Machine

variable (s : State)

/-! ### After `TapeWrite` (20_memory.md R35) -/

@[simp] theorem State.tapeWrite_params (i : Nat) (v : Byte) : (s.tapeWrite i v).params = s.params := rfl
@[simp] theorem State.tapeWrite_hostScript (i : Nat) (v : Byte) : (s.tapeWrite i v).hostScript = s.hostScript := rfl
@[simp] theorem State.tapeWrite_prog (i : Nat) (v : Byte) : (s.tapeWrite i v).prog = s.prog := rfl
@[simp] theorem State.tapeWrite_pc (i : Nat) (v : Byte) : (s.tapeWrite i v).pc = s.pc := rfl
@[simp] theorem State.tapeWrite_tape (i : Nat) (v : Byte) : (s.tapeWrite i v).tape = s.tape.write i v := rfl
@[simp] theorem State.tapeWrite_dp (i : Nat) (v : Byte) : (s.tapeWrite i v).dp = s.dp := rfl
@[simp] theorem State.tapeWrite_runState (i : Nat) (v : Byte) : (s.tapeWrite i v).runState = s.runState := rfl
@[simp] theorem State.tapeWrite_faultCause (i : Nat) (v : Byte) : (s.tapeWrite i v).faultCause = s.faultCause := rfl
@[simp] theorem State.tapeWrite_faultPc (i : Nat) (v : Byte) : (s.tapeWrite i v).faultPc = s.faultPc := rfl
@[simp] theorem State.tapeWrite_faultDir (i : Nat) (v : Byte) : (s.tapeWrite i v).faultDir = s.faultDir := rfl
@[simp] theorem State.tapeWrite_loadError (i : Nat) (v : Byte) : (s.tapeWrite i v).loadError = s.loadError := rfl
@[simp] theorem State.tapeWrite_out (i : Nat) (v : Byte) : (s.tapeWrite i v).out = s.out := rfl

/-! ### After `TapeAppend` (20_memory.md R36) -/

@[simp] theorem State.tapeAppend_params (v : Byte) : (s.tapeAppend v).params = s.params := rfl
@[simp] theorem State.tapeAppend_hostScript (v : Byte) : (s.tapeAppend v).hostScript = s.hostScript := rfl
@[simp] theorem State.tapeAppend_prog (v : Byte) : (s.tapeAppend v).prog = s.prog := rfl
@[simp] theorem State.tapeAppend_pc (v : Byte) : (s.tapeAppend v).pc = s.pc := rfl
@[simp] theorem State.tapeAppend_tape (v : Byte) : (s.tapeAppend v).tape = s.tape.append v := rfl
@[simp] theorem State.tapeAppend_dp (v : Byte) : (s.tapeAppend v).dp = s.dp := rfl
@[simp] theorem State.tapeAppend_runState (v : Byte) : (s.tapeAppend v).runState = s.runState := rfl
@[simp] theorem State.tapeAppend_faultCause (v : Byte) : (s.tapeAppend v).faultCause = s.faultCause := rfl
@[simp] theorem State.tapeAppend_faultPc (v : Byte) : (s.tapeAppend v).faultPc = s.faultPc := rfl
@[simp] theorem State.tapeAppend_faultDir (v : Byte) : (s.tapeAppend v).faultDir = s.faultDir := rfl
@[simp] theorem State.tapeAppend_loadError (v : Byte) : (s.tapeAppend v).loadError = s.loadError := rfl
@[simp] theorem State.tapeAppend_out (v : Byte) : (s.tapeAppend v).out = s.out := rfl

/-! ### After `Emit` (20_memory.md R47) -/

@[simp] theorem State.emit_params (v : Byte) : (s.emit v).params = s.params := rfl
@[simp] theorem State.emit_hostScript (v : Byte) : (s.emit v).hostScript = s.hostScript := rfl
@[simp] theorem State.emit_prog (v : Byte) : (s.emit v).prog = s.prog := rfl
@[simp] theorem State.emit_pc (v : Byte) : (s.emit v).pc = s.pc := rfl
@[simp] theorem State.emit_tape (v : Byte) : (s.emit v).tape = s.tape := rfl
@[simp] theorem State.emit_dp (v : Byte) : (s.emit v).dp = s.dp := rfl
@[simp] theorem State.emit_runState (v : Byte) : (s.emit v).runState = s.runState := rfl
@[simp] theorem State.emit_faultCause (v : Byte) : (s.emit v).faultCause = s.faultCause := rfl
@[simp] theorem State.emit_faultPc (v : Byte) : (s.emit v).faultPc = s.faultPc := rfl
@[simp] theorem State.emit_faultDir (v : Byte) : (s.emit v).faultDir = s.faultDir := rfl
@[simp] theorem State.emit_loadError (v : Byte) : (s.emit v).loadError = s.loadError := rfl
@[simp] theorem State.emit_out (v : Byte) : (s.emit v).out = s.out ++ [v] := rfl

/-! ### After the write of `dp` (10_state.md R13) -/

@[simp] theorem State.setDp_params (v : Nat) : (s.setDp v).params = s.params := rfl
@[simp] theorem State.setDp_hostScript (v : Nat) : (s.setDp v).hostScript = s.hostScript := rfl
@[simp] theorem State.setDp_prog (v : Nat) : (s.setDp v).prog = s.prog := rfl
@[simp] theorem State.setDp_pc (v : Nat) : (s.setDp v).pc = s.pc := rfl
@[simp] theorem State.setDp_tape (v : Nat) : (s.setDp v).tape = s.tape := rfl
@[simp] theorem State.setDp_dp (v : Nat) : (s.setDp v).dp = v := rfl
@[simp] theorem State.setDp_runState (v : Nat) : (s.setDp v).runState = s.runState := rfl
@[simp] theorem State.setDp_faultCause (v : Nat) : (s.setDp v).faultCause = s.faultCause := rfl
@[simp] theorem State.setDp_faultPc (v : Nat) : (s.setDp v).faultPc = s.faultPc := rfl
@[simp] theorem State.setDp_faultDir (v : Nat) : (s.setDp v).faultDir = s.faultDir := rfl
@[simp] theorem State.setDp_loadError (v : Nat) : (s.setDp v).loadError = s.loadError := rfl
@[simp] theorem State.setDp_out (v : Nat) : (s.setDp v).out = s.out := rfl

/-! ### After the write of `pc` (10_state.md R12) -/

@[simp] theorem State.setPc_params (v : Nat) : (s.setPc v).params = s.params := rfl
@[simp] theorem State.setPc_hostScript (v : Nat) : (s.setPc v).hostScript = s.hostScript := rfl
@[simp] theorem State.setPc_prog (v : Nat) : (s.setPc v).prog = s.prog := rfl
@[simp] theorem State.setPc_pc (v : Nat) : (s.setPc v).pc = v := rfl
@[simp] theorem State.setPc_tape (v : Nat) : (s.setPc v).tape = s.tape := rfl
@[simp] theorem State.setPc_dp (v : Nat) : (s.setPc v).dp = s.dp := rfl
@[simp] theorem State.setPc_runState (v : Nat) : (s.setPc v).runState = s.runState := rfl
@[simp] theorem State.setPc_faultCause (v : Nat) : (s.setPc v).faultCause = s.faultCause := rfl
@[simp] theorem State.setPc_faultPc (v : Nat) : (s.setPc v).faultPc = s.faultPc := rfl
@[simp] theorem State.setPc_faultDir (v : Nat) : (s.setPc v).faultDir = s.faultDir := rfl
@[simp] theorem State.setPc_loadError (v : Nat) : (s.setPc v).loadError = s.loadError := rfl
@[simp] theorem State.setPc_out (v : Nat) : (s.setPc v).out = s.out := rfl

/-! ### After the advance of `pc` (40_dispatch.md R62) -/

@[simp] theorem State.advance_params : (s.advance).params = s.params := rfl
@[simp] theorem State.advance_hostScript : (s.advance).hostScript = s.hostScript := rfl
@[simp] theorem State.advance_prog : (s.advance).prog = s.prog := rfl
@[simp] theorem State.advance_pc : (s.advance).pc = s.pc + 1 := rfl
@[simp] theorem State.advance_tape : (s.advance).tape = s.tape := rfl
@[simp] theorem State.advance_dp : (s.advance).dp = s.dp := rfl
@[simp] theorem State.advance_runState : (s.advance).runState = s.runState := rfl
@[simp] theorem State.advance_faultCause : (s.advance).faultCause = s.faultCause := rfl
@[simp] theorem State.advance_faultPc : (s.advance).faultPc = s.faultPc := rfl
@[simp] theorem State.advance_faultDir : (s.advance).faultDir = s.faultDir := rfl
@[simp] theorem State.advance_loadError : (s.advance).loadError = s.loadError := rfl
@[simp] theorem State.advance_out : (s.advance).out = s.out := rfl

/-! ### After the write of `run_state` (10_state.md R17) -/

@[simp] theorem State.setRunState_params (v : RunState) : (s.setRunState v).params = s.params := rfl
@[simp] theorem State.setRunState_hostScript (v : RunState) : (s.setRunState v).hostScript = s.hostScript := rfl
@[simp] theorem State.setRunState_prog (v : RunState) : (s.setRunState v).prog = s.prog := rfl
@[simp] theorem State.setRunState_pc (v : RunState) : (s.setRunState v).pc = s.pc := rfl
@[simp] theorem State.setRunState_tape (v : RunState) : (s.setRunState v).tape = s.tape := rfl
@[simp] theorem State.setRunState_dp (v : RunState) : (s.setRunState v).dp = s.dp := rfl
@[simp] theorem State.setRunState_runState (v : RunState) : (s.setRunState v).runState = v := rfl
@[simp] theorem State.setRunState_faultCause (v : RunState) : (s.setRunState v).faultCause = s.faultCause := rfl
@[simp] theorem State.setRunState_faultPc (v : RunState) : (s.setRunState v).faultPc = s.faultPc := rfl
@[simp] theorem State.setRunState_faultDir (v : RunState) : (s.setRunState v).faultDir = s.faultDir := rfl
@[simp] theorem State.setRunState_loadError (v : RunState) : (s.setRunState v).loadError = s.loadError := rfl
@[simp] theorem State.setRunState_out (v : RunState) : (s.setRunState v).out = s.out := rfl

/-! ### After fault entry (60_exceptions.md R91) -/

@[simp] theorem State.raiseFault_params (f : EngineFault) : (s.raiseFault f).params = s.params := rfl
@[simp] theorem State.raiseFault_hostScript (f : EngineFault) : (s.raiseFault f).hostScript = s.hostScript := rfl
@[simp] theorem State.raiseFault_prog (f : EngineFault) : (s.raiseFault f).prog = s.prog := rfl
@[simp] theorem State.raiseFault_pc (f : EngineFault) : (s.raiseFault f).pc = s.pc := rfl
@[simp] theorem State.raiseFault_tape (f : EngineFault) : (s.raiseFault f).tape = s.tape := rfl
@[simp] theorem State.raiseFault_dp (f : EngineFault) : (s.raiseFault f).dp = s.dp := rfl
@[simp] theorem State.raiseFault_runState (f : EngineFault) : (s.raiseFault f).runState = .faulted := rfl
@[simp] theorem State.raiseFault_faultCause (f : EngineFault) : (s.raiseFault f).faultCause = f.cause := rfl
@[simp] theorem State.raiseFault_faultPc (f : EngineFault) : (s.raiseFault f).faultPc = s.pc := rfl
@[simp] theorem State.raiseFault_faultDir (f : EngineFault) : (s.raiseFault f).faultDir = f.dir := rfl
@[simp] theorem State.raiseFault_loadError (f : EngineFault) : (s.raiseFault f).loadError = s.loadError := rfl
@[simp] theorem State.raiseFault_out (f : EngineFault) : (s.raiseFault f).out = s.out := rfl

end Sys2Proof.Machine
end

