-- ==== Sys2Proof/Laws/Ops.lean ====
section
/-! SUPPORT. For each operation that several meanings share, one lemma that says everything it can answer. -/

namespace Sys2Proof.Machine

/-- A step that completes only advances `pc` past the state it is given. -/
@[simp] theorem complete_eq (s : State) : complete s = .next s.advance := rfl

/-- A step that faults is fault entry, a next state. -/
@[simp] theorem trap_eq (f : EngineFault) (s : State) : trap f s = .next (s.raiseFault f) := rfl

/-- An instruction that reads the current cell either runs with its value or raises `AbsentCellRead`. -/
theorem withCurrentCell_cases (s : State) (use : Byte → Answer) :
    (s.currentCell = none ∧ withCurrentCell s use = .next (s.raiseFault .absentCellRead)) ∨
      ∃ v, s.currentCell = some v ∧ withCurrentCell s use = use v := by
  unfold withCurrentCell
  cases h : s.currentCell with
  | none => exact .inl ⟨rfl, rfl⟩
  | some v => exact .inr ⟨v, rfl, rfl⟩

/-- The growth controller appends, or raises `TapeOverflow` when the tape is full. -/
theorem growTape_cases (v : Byte) (s : State) :
    (s.params.tapeMax = some s.tapeLen ∧ growTape v s = .next (s.raiseFault .tapeOverflow)) ∨
      (s.params.tapeMax ≠ some s.tapeLen ∧ growTape v s = .next (s.tapeAppend v).advance) := by
  by_cases h : s.params.tapeMax = some s.tapeLen <;> simp [growTape, atMax, h]

/-- CINC and CDEC rewrite the current cell, append a cell, or raise `TapeOverflow`. -/
theorem updateCell_cases (f : Byte → Byte) (a : Byte) (s : State) :
    (∃ v, s.currentCell = some v ∧ updateCell f a s = .next (s.tapeWrite s.dp (f v)).advance) ∨
      (s.currentCell = none ∧ s.params.tapeMax = some s.tapeLen ∧
        updateCell f a s = .next (s.raiseFault .tapeOverflow)) ∨
      (s.currentCell = none ∧ s.params.tapeMax ≠ some s.tapeLen ∧
        updateCell f a s = .next (s.tapeAppend a).advance) := by
  unfold updateCell
  cases h : s.currentCell with
  | some v => exact .inl ⟨v, rfl, rfl⟩
  | none =>
    rcases growTape_cases a s with ⟨hm, hg⟩ | ⟨hm, hg⟩
    · exact .inr (.inl ⟨rfl, hm, hg⟩)
    · exact .inr (.inr ⟨rfl, hm, hg⟩)

/-- A taken jump lands past the match, raises `UnmatchedBracket`, or was started outside the program. -/
theorem jumpTo_cases (dir : ScanDir) (s : State) (r : ScanResult) :
    (∃ m, r = .found m ∧ jumpTo dir s r = .next (s.setPc m).advance) ∨
      (r = .unmatched ∧ jumpTo dir s r = .next (s.raiseFault (.unmatchedBracket dir))) ∨
      (r = .outside ∧ jumpTo dir s r = .fault .programReadOutsideStore) := by
  cases r with
  | found m => exact .inl ⟨m, rfl, rfl⟩
  | unmatched => exact .inr (.inl ⟨rfl, rfl⟩)
  | outside => exact .inr (.inr ⟨rfl, rfl⟩)

/-- A host `load` drops the byte and sets `load_error`, appends the byte, or does nothing outside `Idle`. -/
theorem hostLoad_cases (b : Byte) (s : State) :
    (s.runState = .idle ∧ s.params.progMax = some s.progLen ∧ hostLoad b s = { s with loadError := true }) ∨
      (s.runState = .idle ∧ s.params.progMax ≠ some s.progLen ∧ hostLoad b s = { s with prog := s.prog.append b }) ∨
      (s.runState ≠ .idle ∧ hostLoad b s = s) := by
  cases h : s.runState <;> simp [hostLoad, h]
  by_cases hm : s.params.progMax = some s.progLen <;> simp [atMax, hm]

/-- A host `run` starts an idle engine without `load_error` and does nothing else. -/
theorem hostRun_cases (s : State) :
    (s.runState = .idle ∧ s.loadError = false ∧ hostRun s = s.setRunState .running) ∨
      ((s.runState ≠ .idle ∨ s.loadError = true) ∧ hostRun s = s) := by
  cases h : s.runState <;> cases hl : s.loadError <;> simp [hostRun, h, hl]

end Sys2Proof.Machine
end

