-- ==== Sys2Proof/Laws/PerInstr.lean ====
section
/-! SUPPORT. Facts stated once per instruction: the two bracket bytes, which a scan looks for, are the encodings of the two
jumps and of nothing else (30_encoding.md R57), so a scan and the dispatcher agree on what a bracket is. -/

namespace Sys2Proof.Laws.BracketBytes

/-- A well-formed instruction is encoded as a bracket byte exactly when it is that jump. -/
def Statement (i : Instr) : Prop :=
  i.wf = true → ((encode i = Opcode.jfz ↔ i = .jfz) ∧ (encode i = Opcode.jbnz ↔ i = .jbnz))

theorem pinc : Statement .pinc := fun _ => by decide
theorem pdec : Statement .pdec := fun _ => by decide
theorem cinc : Statement .cinc := fun _ => by decide
theorem cdec : Statement .cdec := fun _ => by decide
theorem out : Statement .out := fun _ => by decide
theorem jfz : Statement .jfz := fun _ => by decide
theorem jbnz : Statement .jbnz := fun _ => by decide
theorem nopin : Statement .nopin := fun _ => by decide
theorem nop (b : Byte) : Statement (.nop b) := by
  intro h
  simp [Instr.wf, Opcode.assigned] at h
  simp [encode, h]

end Sys2Proof.Laws.BracketBytes
end

