-- ==== Sys2Proof/Laws/Scan.lean ====
section
/-! SUPPORT. What a scan can answer: where a match lies and which byte it is, and when there is no byte to start from. -/

namespace Sys2Proof.Machine

/-- The forward scan stops at a `]` at or after its cursor, inside the bytes it was given. -/
theorem scanForwardFrom_found {bs : List Byte} {i m : Nat} {d : Int} (h : scanForwardFrom bs i d = .found m) :
    i ≤ m ∧ bs[m - i]? = some Opcode.jbnz := by
  induction bs generalizing i d with
  | nil => simp [scanForwardFrom] at h
  | cons c cs ih =>
    have later : ∀ d', scanForwardFrom cs (i + 1) d' = .found m → i ≤ m ∧ (c :: cs)[m - i]? = some Opcode.jbnz := by
      intro d' h'
      obtain ⟨hle, hget⟩ := ih h'
      have : m - i = (m - (i + 1)) + 1 := by omega
      exact ⟨by omega, by rw [this]; simpa using hget⟩
    simp only [scanForwardFrom] at h
    split at h
    · exact later _ h
    · split at h
      · split at h
        · cases h
          exact ⟨Nat.le_refl _, by simp_all⟩
        · exact later _ h
      · exact later _ h

theorem scanForwardFrom_ne_outside (bs : List Byte) (i : Nat) (d : Int) : scanForwardFrom bs i d ≠ .outside := by
  induction bs generalizing i d with
  | nil => simp [scanForwardFrom]
  | cons c cs ih => simp only [scanForwardFrom]; split_ifs <;> simp [ih]

/-- A match of `ScanForward(p)` is a `]` at or after `p`, inside the program (44_jump.md R76). -/
theorem scanForward_found {prog : Memory} {p m : Nat} (h : scanForward prog p = .found m) :
    p ≤ m ∧ m < prog.length ∧ prog.read m = some Opcode.jbnz := by
  obtain ⟨hle, hget⟩ := scanForwardFrom_found h
  rw [List.getElem?_drop, Nat.add_sub_cancel' hle] at hget
  exact ⟨hle, Memory.lt_of_read hget, hget⟩

/-- The forward scan never leaves the store: its cursor is tested before each read (44_jump.md R76). -/
theorem scanForward_ne_outside (prog : Memory) (p : Nat) : scanForward prog p ≠ .outside :=
  scanForwardFrom_ne_outside _ _ _

/-- The backward scan stops at a `[`, at or before its cursor. -/
theorem scanBackwardFrom_found {prog : Memory} {i m : Nat} {d : Int} (h : scanBackwardFrom prog i d = .found m) :
    m ≤ i ∧ prog.read m = some Opcode.jfz := by
  have here : ∀ {k c d}, prog.read k = some c → (backwardCount c d).2 = true → prog.read k = some Opcode.jfz := by
    intro k c d hk hc
    unfold backwardCount at hc
    split_ifs at hc with h1 h2
    rw [hk, h2]
  induction i generalizing d with
  | zero =>
    simp only [scanBackwardFrom] at h
    split at h
    · cases h
    · split at h
      · cases h; exact ⟨Nat.le_refl _, here ‹_› ‹_›⟩
      · cases h
  | succ i ih =>
    simp only [scanBackwardFrom] at h
    split at h
    · cases h
    · split at h
      · cases h; exact ⟨Nat.le_refl _, here ‹_› ‹_›⟩
      · obtain ⟨hle, hget⟩ := ih h
        exact ⟨by omega, hget⟩

theorem scanBackwardFrom_ne_outside {prog : Memory} {i : Nat} (h : i < prog.length) (d : Int) :
    scanBackwardFrom prog i d ≠ .outside := by
  induction i generalizing d with
  | zero => simp only [scanBackwardFrom, Memory.read_of_lt h]; split_ifs <;> simp
  | succ i ih =>
    simp only [scanBackwardFrom, Memory.read_of_lt h]
    split_ifs
    · simp
    · exact ih (by omega) _

/-- A match of `ScanBackward(p)` is a `[` at or before `p` (44_jump.md R77). -/
theorem scanBackward_found {prog : Memory} {p m : Nat} (h : scanBackward prog p = .found m) :
    m ≤ p ∧ prog.read m = some Opcode.jfz := scanBackwardFrom_found h

/-- From an index of the program the backward scan never leaves the store (44_jump.md R77). -/
theorem scanBackward_ne_outside {prog : Memory} {p : Nat} (h : p < prog.length) : scanBackward prog p ≠ .outside :=
  scanBackwardFrom_ne_outside h 0

end Sys2Proof.Machine
end

