-- ==== Sys2Proof/Laws/Step.lean ====
section
/-! SUPPORT. What one instruction and one step can do, said once, for later proofs to take cases on. -/

namespace Sys2Proof.Machine

/-- Every way an instruction can end, as the one update of the state it makes before `pc` advances, or the fault it
raises with the condition it raises it under. -/
inductive Effect (s : State) : Instr → Answer → Prop where
  | pinc : s.params.dpMax ≠ some s.dp → Effect s .pinc (.next (s.setDp (s.dp + 1)).advance)
  | pincOverflow : s.params.dpMax = some s.dp → Effect s .pinc (.next (s.raiseFault .pointerOverflow))
  | pdec : s.dp ≠ 0 → Effect s .pdec (.next (s.setDp (s.dp - 1)).advance)
  | pdecUnderflow : s.dp = 0 → Effect s .pdec (.next (s.raiseFault .pointerUnderflow))
  | cincWrite {v} : s.currentCell = some v → Effect s .cinc (.next (s.tapeWrite s.dp (cellAdd1 v)).advance)
  | cincAppend : s.currentCell = none → s.params.tapeMax ≠ some s.tapeLen →
      Effect s .cinc (.next (s.tapeAppend 1#8).advance)
  | cincOverflow : s.currentCell = none → s.params.tapeMax = some s.tapeLen →
      Effect s .cinc (.next (s.raiseFault .tapeOverflow))
  | cdecWrite {v} : s.currentCell = some v → Effect s .cdec (.next (s.tapeWrite s.dp (cellSub1 v)).advance)
  | cdecAppend : s.currentCell = none → s.params.tapeMax ≠ some s.tapeLen →
      Effect s .cdec (.next (s.tapeAppend 1#8).advance)
  | cdecOverflow : s.currentCell = none → s.params.tapeMax = some s.tapeLen →
      Effect s .cdec (.next (s.raiseFault .tapeOverflow))
  | out {v} : s.currentCell = some v → Effect s .out (.next (s.emit v).advance)
  | absent {i} : i = .out ∨ i = .jfz ∨ i = .jbnz → s.currentCell = none →
      Effect s i (.next (s.raiseFault .absentCellRead))
  | jfzFall {v} : s.currentCell = some v → v ≠ 0#8 → Effect s .jfz (.next s.advance)
  | jfzJump {m} : s.currentCell = some 0#8 → scanForward s.prog s.pc = .found m →
      Effect s .jfz (.next (s.setPc m).advance)
  | jfzUnmatched : s.currentCell = some 0#8 → scanForward s.prog s.pc = .unmatched →
      Effect s .jfz (.next (s.raiseFault (.unmatchedBracket .forward)))
  | jbnzFall : s.currentCell = some 0#8 → Effect s .jbnz (.next s.advance)
  | jbnzJump {v m} : s.currentCell = some v → v ≠ 0#8 → scanBackward s.prog s.pc = .found m →
      Effect s .jbnz (.next (s.setPc m).advance)
  | jbnzUnmatched {v} : s.currentCell = some v → v ≠ 0#8 → scanBackward s.prog s.pc = .unmatched →
      Effect s .jbnz (.next (s.raiseFault (.unmatchedBracket .backward)))
  | jbnzOutside {v} : s.currentCell = some v → v ≠ 0#8 → scanBackward s.prog s.pc = .outside →
      Effect s .jbnz (.fault .programReadOutsideStore)
  | nopin : Effect s .nopin (.next s.advance)
  | nop {b} : Effect s (.nop b) (.next s.advance)

theorem effect_jfz (s : State) : Effect s .jfz (execJfz s) := by
  unfold execJfz
  rcases withCurrentCell_cases s (fun v => if cellIsZero v then jumpTo .forward s (scanForward s.prog s.pc)
    else complete s) with ⟨hc, he⟩ | ⟨v, hc, he⟩
  · rw [he]; exact .absent (by simp) hc
  · rw [he]
    by_cases hz : v = 0#8
    · subst hz
      rcases jumpTo_cases .forward s (scanForward s.prog s.pc) with ⟨m, hr, hj⟩ | ⟨hr, hj⟩ | ⟨hr, -⟩
      · simpa [cellIsZero, hj] using Effect.jfzJump hc hr
      · simpa [cellIsZero, hj] using Effect.jfzUnmatched hc hr
      · exact absurd hr (scanForward_ne_outside _ _)
    · simpa [cellIsZero, hz] using Effect.jfzFall hc hz

theorem effect_jbnz (s : State) : Effect s .jbnz (execJbnz s) := by
  unfold execJbnz
  rcases withCurrentCell_cases s (fun v => if cellIsZero v then complete s
    else jumpTo .backward s (scanBackward s.prog s.pc)) with ⟨hc, he⟩ | ⟨v, hc, he⟩
  · rw [he]; exact .absent (by simp) hc
  · rw [he]
    by_cases hz : v = 0#8
    · subst hz
      simpa [cellIsZero] using Effect.jbnzFall hc
    · rcases jumpTo_cases .backward s (scanBackward s.prog s.pc) with ⟨m, hr, hj⟩ | ⟨hr, hj⟩ | ⟨hr, hj⟩
      · simpa [cellIsZero, hz, hj] using Effect.jbnzJump hc hz hr
      · simpa [cellIsZero, hz, hj] using Effect.jbnzUnmatched hc hz hr
      · simpa [cellIsZero, hz, hj] using Effect.jbnzOutside hc hz hr

/-- Every instruction ends in one of the ways of `Effect`. -/
theorem exec_effect (i : Instr) (s : State) : Effect s i (exec i s) := by
  cases i with
  | pinc =>
    by_cases h : s.params.dpMax = some s.dp
    · simpa [exec, execPinc, atMax, h] using Effect.pincOverflow h
    · simpa [exec, execPinc, atMax, h] using Effect.pinc h
  | pdec =>
    by_cases h : s.dp = 0
    · simpa [exec, execPdec, h] using Effect.pdecUnderflow h
    · simpa [exec, execPdec, h] using Effect.pdec h
  | cinc =>
    show Effect s .cinc (updateCell cellAdd1 1#8 s)
    rcases updateCell_cases cellAdd1 1#8 s with ⟨v, hc, he⟩ | ⟨hc, hm, he⟩ | ⟨hc, hm, he⟩ <;> rw [he]
    · exact .cincWrite hc
    · exact .cincOverflow hc hm
    · exact .cincAppend hc hm
  | cdec =>
    show Effect s .cdec (updateCell cellSub1 1#8 s)
    rcases updateCell_cases cellSub1 1#8 s with ⟨v, hc, he⟩ | ⟨hc, hm, he⟩ | ⟨hc, hm, he⟩ <;> rw [he]
    · exact .cdecWrite hc
    · exact .cdecOverflow hc hm
    · exact .cdecAppend hc hm
  | out =>
    show Effect s .out (withCurrentCell s fun v => complete (s.emit v))
    rcases withCurrentCell_cases s (fun v => complete (s.emit v)) with ⟨hc, he⟩ | ⟨v, hc, he⟩ <;> rw [he]
    · exact .absent (by simp) hc
    · exact .out hc
  | jfz => exact effect_jfz s
  | jbnz => exact effect_jbnz s
  | nopin => exact .nopin
  | nop b => exact .nop

/-- What one step of the machine can be (Machine/Loop.lean): a host event, no step at all, the halting step, or the
instruction fetched at `pc`. `r` is the state with the host's entry taken off its script. -/
theorem step_cases (s : State) :
    (∃ e rest, s.hostScript = some e :: rest ∧ step s = .next (hostEvent e { s with hostScript := rest })) ∨
      ∃ r : State, r = { s with hostScript := s.hostScript.tail } ∧
        ((s.runState ≠ .running ∧ step s = .next r) ∨
          (s.runState = .running ∧ s.progLen ≤ s.pc ∧ step s = .next (r.setRunState .halted)) ∨
          ∃ b, s.runState = .running ∧ s.progRead s.pc = some b ∧ step s = exec (decode b) r) := by
  have engine : ∀ r : State,
      (r.runState ≠ .running ∧ engineTurn r = .next r) ∨
        (r.runState = .running ∧ r.progLen ≤ r.pc ∧ engineTurn r = .next (r.setRunState .halted)) ∨
        ∃ b, r.runState = .running ∧ r.progRead r.pc = some b ∧ engineTurn r = exec (decode b) r := by
    intro r
    cases hr : r.runState with
    | idle => simp [engineTurn, hr]
    | halted => simp [engineTurn, hr]
    | faulted => simp [engineTurn, hr]
    | running =>
      by_cases hp : r.progLen ≤ r.pc
      · simp [engineTurn, engineStep, hr, hp]
      · have hb : r.progRead r.pc = some (r.prog[r.pc]'(by simpa [State.progLen] using hp)) := Memory.read_of_lt _
        refine .inr (.inr ⟨_, rfl, hb, ?_⟩)
        simp [engineTurn, engineStep, hr, hp, State.fetch, hb]
  rcases hs : s.hostScript with _ | ⟨_ | e, rest⟩
  · refine .inr ⟨s, by cases s; simp_all, ?_⟩
    simpa [step, turn, hs] using engine s
  · refine .inr ⟨{ s with hostScript := rest }, rfl, ?_⟩
    simpa [step, turn, hs, State.progLen, State.progRead] using engine { s with hostScript := rest }
  · exact .inl ⟨e, rest, rfl, by simp [step, turn, hs]⟩

end Sys2Proof.Machine
end

