-- ==== Sys2Proof/Laws/Run.lean ====
section
/-! SUPPORT. Runs of several steps: one step at a time, and what every step does to the host's script. -/

namespace Sys2Proof.Safety

open Sys2Proof.Machine

/-- No step leads nowhere but to the state itself. -/
theorem runsTo_zero {s t : State} : RunsTo 0 s t ↔ s = t := by
  refine ⟨fun h => ?_, fun h => h ▸ rfl⟩
  injection (show Host.Outcome.next s = .next t from h)

/-- A run of `k + 1` steps whose first step leads to `u` is a run of `k` steps from `u`. -/
theorem runsTo_succ {k : Nat} {s t u : State} (h : Machine.step s = .next u) :
    RunsTo (k + 1) s t ↔ RunsTo k u t := by
  have e := Host.Core.run.eq_2 Sys2Proof.core s k
  rw [show Sys2Proof.core.step s = .next u from h] at e
  unfold RunsTo
  exact ⟨fun h' => e.symm.trans h', fun h' => e.trans h'⟩

/-- Executing an instruction leaves the host's script alone. -/
theorem exec_hostScript {i : Instr} {s t : State} (h : exec i s = .next t) : t.hostScript = s.hostScript := by
  have he := exec_effect i s
  rw [h] at he
  cases he <;> simp

/-- A host event leaves the host's script alone. -/
theorem hostEvent_hostScript (e : HostEvent) (s : State) : (hostEvent e s).hostScript = s.hostScript := by
  cases e with
  | rst => rfl
  | load b => rcases hostLoad_cases b s with ⟨-, -, h⟩ | ⟨-, -, h⟩ | ⟨-, h⟩ <;> simp [hostEvent, h]
  | run => rcases hostRun_cases s with ⟨-, -, h⟩ | ⟨-, h⟩ <;> simp [hostEvent, h]

/-- Every step takes exactly one entry off the host's script. -/
theorem step_hostScript {s t : State} (h : Machine.step s = .next t) : t.hostScript = s.hostScript.tail := by
  rcases step_cases s with ⟨e, rest, hs, he⟩ | ⟨r, hr, ⟨-, h2⟩ | ⟨-, -, h2⟩ | ⟨b, -, -, h2⟩⟩
  · rw [h] at he
    injection he with he
    rw [he, hostEvent_hostScript, hs]
    rfl
  · rw [h] at h2
    injection h2 with h2
    rw [h2, hr]
  · rw [h] at h2
    injection h2 with h2
    rw [h2, hr]
    rfl
  · rw [exec_hostScript (h2.symm.trans h), hr]

end Sys2Proof.Safety
end

