-- ==== Sys2Proof/Tests/Slice0.lean ====
section
/-! SUPPORT. Tests. Expected results come from the spec: its encodings (30_encoding.md R51) and its vectors
(95_test_vectors.md, named at each test). At the end, for every statement with hypotheses, a state that meets them, clause by
clause, at the edges of its ranges. -/

namespace Sys2Proof.Tests

open Sys2Proof.Machine Sys2Proof.Safety

/-! ### Helpers -/

/-- A running engine with unbounded parameters and a silent host. -/
def eng (prog tape : List Byte) (pc dp : Nat) : State :=
  { State.reset with runState := .running, prog := prog, tape := tape, pc := pc, dp := dp }

/-- The next state, if the answer is one. -/
def next? : Answer → Option State
  | .next t => some t
  | .fault _ => none
  | .refused _ => none

/-- What a field shows after one step. -/
def shows {α : Type} (f : State → α) (s : State) : Option α := (next? (Machine.step s)).map f

/-- The fault record and the state of the dispatch loop. -/
def record (s : State) : RunState × FaultCause × Nat × ScanDir := (s.runState, s.faultCause, s.faultPc, s.faultDir)

/-! ### Well-formedness: each byte with a row of its own is refused as a NOP -/

theorem test_wf_refuses_pinc_byte : (Instr.nop 0x3E#8).wf = false := by decide
theorem test_wf_refuses_pdec_byte : (Instr.nop 0x3C#8).wf = false := by decide
theorem test_wf_refuses_cinc_byte : (Instr.nop 0x2B#8).wf = false := by decide
theorem test_wf_refuses_cdec_byte : (Instr.nop 0x2D#8).wf = false := by decide
theorem test_wf_refuses_out_byte : (Instr.nop 0x2E#8).wf = false := by decide
theorem test_wf_refuses_jfz_byte : (Instr.nop 0x5B#8).wf = false := by decide
theorem test_wf_refuses_jbnz_byte : (Instr.nop 0x5D#8).wf = false := by decide
theorem test_wf_refuses_nopin_byte : (Instr.nop 0x2C#8).wf = false := by decide
theorem test_wf_accepts_nop : (Instr.nop 0x61#8).wf = true := by decide

/-! ### Decoding: the words of 30_encoding.md R51, bit by bit -/

theorem test_decode_pinc : decode 0b00111110#8 = .pinc := by decide
theorem test_decode_pdec : decode 0b00111100#8 = .pdec := by decide
theorem test_decode_cinc : decode 0b00101011#8 = .cinc := by decide
theorem test_decode_cdec : decode 0b00101101#8 = .cdec := by decide
theorem test_decode_out : decode 0b00101110#8 = .out := by decide
theorem test_decode_jfz : decode 0b01011011#8 = .jfz := by decide
theorem test_decode_jbnz : decode 0b01011101#8 = .jbnz := by decide
theorem test_decode_nopin : decode 0b00101100#8 = .nopin := by decide
/-- 0x61 is `a` (40_dispatch.md R63). -/
theorem test_decode_nop : decode 0b01100001#8 = .nop 0x61#8 := by decide
/-- One bit away from `[`: a byte below, no bracket. -/
theorem test_decode_nop_beside_jfz : decode 0x5A#8 = .nop 0x5A#8 := by decide
theorem test_decode_nothing : decodeBytes [] = .error .noByte := rfl
theorem test_decode_keeps_the_rest : decodeBytes [0x2B#8, 0x5B#8] = .ok (.cinc, [0x5B#8]) := rfl
theorem test_table_word : decodeTableWord 8 0x5D = some .jbnz := by decide
/-- A table word of more than one byte has its first byte in the low bits. -/
theorem test_table_word_first_byte : decodeTableWord 16 0x5D2B = some .cinc := by decide

/-! ### An instruction placed where the next step fetches -/

theorem test_fetch_word_runs : shows State.tape (State.reset.withFetchWord 8 0x2B) = some [1#8] := by decide
theorem test_fetch_word_elsewhere : ((eng [] [] 2 0).withFetchWord 8 0x3E).progRead 2 = some 0x3E#8 := by decide

/-! ### One step of each instruction (95_test_vectors.md) -/

/-- Table P: `dp = 5` may lie beyond the tape, and PINC leaves the tape alone. -/
theorem test_pinc_beyond_tape : shows (fun t => (t.dp, t.pc, t.tape)) (eng [0x3E#8] [9#8] 0 5) = some (6, 1, [9#8]) := by
  decide
/-- Table P, `DP_MAX = 1`: cause 4, `pc` and `dp` unchanged. -/
theorem test_pinc_overflow :
    shows (fun t => (record t, t.pc, t.dp))
      { eng [0x3E#8, 0x3E#8] [] 1 1 with params := { Params.unbounded with dpMax := some 1 } } =
      some ((.faulted, .pointerOverflow, 1, .forward), 1, 1) := by decide
/-- Table P. -/
theorem test_pdec_beyond_tape : shows (fun t => (t.dp, t.tape)) (eng [0x3C#8] [9#8] 0 5) = some (4, [9#8]) := by decide
/-- Table S: `<` on a fresh engine. -/
theorem test_pdec_underflow :
    shows (fun t => (record t, t.pc, t.dp)) (eng [0x3C#8] [] 0 0) =
      some ((.faulted, .pointerUnderflow, 0, .forward), 0, 0) := by decide
/-- V7: 255 + 1 is 0, and only the current cell changes. -/
theorem test_cinc_wraps : shows State.tape (eng [0x2B#8] [7#8, 255#8] 0 1) = some [7#8, 0#8] := by decide
/-- Program D, step 3: with `dp = 2` and an empty tape the cell is appended at index 0. -/
theorem test_cinc_appends_at_end : shows (fun t => (t.tape, t.dp)) (eng [0x2B#8] [] 0 2) = some ([1#8], 2) := by decide
/-- V7: 0 - 1 is 255. -/
theorem test_cdec_wraps : shows State.tape (eng [0x2D#8] [0#8] 0 0) = some [255#8] := by decide
/-- V6: on an absent cell CDEC appends 1, not 255. -/
theorem test_cdec_appends_one : shows State.tape (eng [0x2D#8] [] 0 0) = some [1#8] := by decide
/-- Table O: 200 is emitted as one raw value. -/
theorem test_out_emits : shows (fun t => (t.out, t.tape)) (eng [0x2E#8] [200#8] 0 0) = some ([200#8], [200#8]) := by decide
/-- Table O, `+>.`: an absent cell is not read as 0. -/
theorem test_out_absent :
    shows (fun t => (record t, t.out)) (eng [0x2B#8, 0x3E#8, 0x2E#8] [1#8] 2 1) =
      some ((.faulted, .absentCellRead, 2, .forward), []) := by decide
/-- Program B, step 3: the nested pair is skipped by counting. -/
theorem test_jfz_nested :
    shows State.pc (eng [0x2B#8, 0x2D#8, 0x5B#8, 0x5B#8, 0x2D#8, 0x5D#8, 0x2B#8, 0x5D#8, 0x2B#8, 0x2E#8] [0#8] 2 0) =
      some 8 := by decide
/-- V5: a scan that runs off the end. -/
theorem test_jfz_unmatched :
    shows (fun t => (record t, t.pc)) (eng [0x2B#8, 0x2D#8, 0x5B#8] [0#8] 2 0) =
      some ((.faulted, .unmatchedBracket, 2, .forward), 2) := by decide
/-- Table J: JBNZ at 2 finds the `[` at index 0 and lands past it. -/
theorem test_jbnz_back_to_zero : shows State.pc (eng [0x5B#8, 0x2D#8, 0x5D#8] [2#8] 2 0) = some 1 := by decide
/-- Table J, `+]`: the backward scan has no match. -/
theorem test_jbnz_unmatched :
    shows (fun t => (record t, t.pc)) (eng [0x2B#8, 0x5D#8] [1#8] 1 0) =
      some ((.faulted, .unmatchedBracket, 1, .backward), 1) := by decide
/-- Table N: `,` on a fresh engine touches nothing. -/
theorem test_nopin : shows (fun t => (t.pc, t.tape, t.runState)) (eng [0x2C#8] [] 0 0) = some (1, [], .running) := by decide
/-- Table S: byte FF. -/
theorem test_nop : shows (fun t => (t.pc, t.tape, t.runState)) (eng [0xFF#8] [] 0 0) = some (1, [], .running) := by decide

/-! ### Scan traces (95_test_vectors.md, table J) -/

theorem test_scan_forward : scanForward [0x5B#8, 0x5B#8, 0x5D#8] 1 = .found 2 := by decide
theorem test_scan_forward_off_end : scanForward [0x5B#8, 0x5B#8, 0x5D#8] 0 = .unmatched := by decide
theorem test_scan_backward : scanBackward [0x5B#8, 0x5B#8, 0x2D#8, 0x5D#8, 0x5D#8] 4 = .found 0 := by decide

/-! ### Halt, host events, status (95_test_vectors.md, V4 and table L) -/

theorem test_empty_program_halts : shows (fun t => (t.runState, t.pc, t.out)) (eng [] [] 0 0) = some (.halted, 0, []) := by
  decide
theorem test_load_overflow :
    (fun t : State => (t.loadError, t.prog))
      (hostEvent (.load 0x2E#8) { State.reset with params := { Params.unbounded with progMax := some 2 }, prog := [0x2B#8, 0x2B#8] }) =
      (true, [0x2B#8, 0x2B#8]) := by decide
theorem test_run_refused : hostEvent .run { State.reset with loadError := true } = { State.reset with loadError := true } := by
  decide
theorem test_late_load_ignored : hostEvent (.load 0x2E#8) (eng [0x2B#8] [] 0 0) = eng [0x2B#8] [] 0 0 := by decide
theorem test_reset_after_fault :
    (fun t : State => (record t, t.prog, t.dp)) (hostEvent .rst { eng [0x3C#8] [1#8] 0 3 with runState := .faulted }) =
      ((.idle, .none, 0, .forward), [], 0) := by decide
theorem test_status_codes :
    (State.status { eng [] [] 0 0 with runState := .faulted, faultCause := .tapeOverflow, faultPc := 7 }) =
      { state := 3#2, faultCause := 5#3, faultDir := 0#1, loadError := 0#1, faultPc := 7 } := by decide

/-! ### States that meet the statements' hypotheses -/

/-- A running engine whose pointer and tape are both full. -/
def full : State :=
  { eng [0x3E#8] [5#8] 0 1 with params := { progMax := some 1, tapeMax := some 1, dpMax := some 1 } }

theorem witness_decode_map_lowest_and_highest :
    (0x00#8 : Byte) ∉ [0x3E#8, 0x3C#8, 0x2B#8, 0x2D#8, 0x2E#8, 0x5B#8, 0x5D#8, 0x2C#8] ∧
      (0xFF#8 : Byte) ∉ [0x3E#8, 0x3C#8, 0x2B#8, 0x2D#8, 0x2E#8, 0x5B#8, 0x5D#8, 0x2C#8] := by decide
theorem witness_round_trip : (Instr.nop 0x00#8).wf = true ∧ Instr.jbnz.wf = true := by decide
theorem witness_every_byte : (Instr.nop 0xFF#8).wf = true ∧ encode (Instr.nop 0xFF#8) = 0xFF#8 := by decide
theorem witness_no_byte_is_illegal : (0x2C#8 : Byte) ∉ [0x3E#8, 0x3C#8, 0x2B#8, 0x2D#8, 0x2E#8, 0x5B#8, 0x5D#8] := by decide
theorem witness_pinc_completes_below_max :
    { full with dp := 0 }.params.dpMax ≠ some { full with dp := 0 }.dp ∧ (eng [] [] 0 0).params.dpMax ≠ some 0 := by decide
theorem witness_pinc_at_max : full.params.dpMax = some full.dp := by decide
theorem witness_pdec_clauses : (eng [] [] 0 1).dp ≠ 0 ∧ (eng [] [] 0 0).dp = 0 := by decide
theorem witness_pinc_then_pdec : ∃ t, exec .pinc (eng [] [] 0 0) = .next t ∧ t.runState ≠ .faulted := ⟨_, rfl, by decide⟩
theorem witness_pdec_then_pinc :
    ∃ t, exec .pdec full = .next t ∧ t.runState ≠ .faulted ∧ full.params.dpMax ≠ some t.dp :=
  ⟨_, rfl, by decide, by decide⟩
theorem witness_pointer_moves :
    (∃ t, exec .pinc (eng [] [] 0 0) = .next t ∧ t.dp ≠ (eng [] [] 0 0).dp) ∧
      ∃ t, exec .pdec (eng [] [] 0 1) = .next t ∧ t.dp ≠ (eng [] [] 0 1).dp :=
  ⟨⟨_, rfl, by decide⟩, _, rfl, by decide⟩
/-- The last cell of the tape exists. -/
theorem witness_cell_exists : (eng [] [7#8, 255#8] 0 1).dp < (eng [] [7#8, 255#8] 0 1).tape.length := by decide
/-- Just past the tape, and further past it, with room. -/
theorem witness_cell_absent_with_room :
    ((eng [] [7#8] 0 1).tape.length ≤ (eng [] [7#8] 0 1).dp ∧ (eng [] [7#8] 0 1).params.tapeMax ≠ some 1) ∧
      ((eng [] [] 0 2).tape.length ≤ (eng [] [] 0 2).dp ∧ (eng [] [] 0 2).params.tapeMax ≠ some 0) := by decide
theorem witness_cell_absent_tape_full :
    full.tape.length ≤ full.dp ∧ full.params.tapeMax = some full.tape.length := by decide
theorem witness_cell_steps_cancel :
    (∃ t, exec .cinc (eng [] [255#8] 0 0) = .next t) ∧ (∃ t, exec .cdec (eng [] [0#8] 0 0) = .next t) ∧
      (eng [] [0#8] 0 0).dp < (eng [] [0#8] 0 0).tape.length :=
  ⟨⟨_, rfl⟩, ⟨_, rfl⟩, by decide⟩
theorem witness_tape_grows : ∃ t, exec .cinc (eng [] [] 0 0) = .next t ∧ t.tape.length ≠ (eng [] [] 0 0).tape.length :=
  ⟨_, rfl, by decide⟩
theorem witness_out_clauses :
    (eng [] [0#8] 0 0).dp < (eng [] [0#8] 0 0).tape.length ∧ (eng [] [] 0 0).tape.length ≤ (eng [] [] 0 0).dp := by decide
theorem witness_output_grows : ∃ t, Machine.step (eng [0x2E#8] [4#8] 0 0) = .next t ∧ t.out = [4#8] := ⟨_, rfl, rfl⟩
/-- The reset clause: two values were out, and a reset is next. -/
theorem witness_output_reset :
    { eng [0x2E#8] [4#8] 0 0 with out := [1#8, 2#8], hostScript := [some .rst] }.hostScript.head? = some (some .rst) ∧
      ∃ t, Machine.step { eng [0x2E#8] [4#8] 0 0 with out := [1#8, 2#8], hostScript := [some .rst] } = .next t ∧ t.out = [] :=
  ⟨rfl, _, rfl, rfl⟩
theorem witness_jfz_clauses :
    ((eng [0x5B#8] [] 0 0).tape.length ≤ (eng [0x5B#8] [] 0 0).dp) ∧ (1#8 : Byte) ≠ 0#8 ∧
      scanForward (eng [0x5B#8, 0x5D#8] [0#8] 0 0).prog 0 = .found 1 ∧
      scanForward (eng [0x5B#8] [0#8] 0 0).prog 0 = .unmatched := by decide
theorem witness_jbnz_clauses :
    ((eng [0x5D#8] [] 0 0).tape.length ≤ (eng [0x5D#8] [] 0 0).dp) ∧ (255#8 : Byte) ≠ 0#8 ∧
      scanBackward (eng [0x5B#8, 0x5D#8] [1#8] 1 0).prog 1 = .found 0 ∧
      scanBackward (eng [0x5D#8] [1#8] 0 0).prog 0 = .unmatched := by decide
theorem witness_scan_forward_balance :
    ([0x5B#8, 0x5D#8] : List Byte)[0]? = some 0x5B#8 ∧ opens (slice [0x5B#8, 0x5D#8] 0 1) = closes (slice [0x5B#8, 0x5D#8] 0 1) ∧
      opens (slice [0x5B#8] 0 0) ≠ closes (slice [0x5B#8] 0 0) := by decide
theorem witness_scan_backward_balance :
    ([0x5B#8, 0x5D#8] : List Byte)[1]? = some 0x5D#8 ∧ opens (slice [0x5B#8, 0x5D#8] 0 1) = closes (slice [0x5B#8, 0x5D#8] 0 1) ∧
      opens (slice [0x5B#8, 0x5D#8] 1 1) ≠ closes (slice [0x5B#8, 0x5D#8] 1 1) := by decide
theorem witness_scans_inverse :
    scanForward [0x5B#8, 0x5D#8] 0 = .found 1 ∧ scanBackward [0x5B#8, 0x5D#8] 1 = .found 0 := by decide
theorem witness_nesting_forward :
    ([0x5B#8, 0x2B#8] : List Byte)[0]? = some 0x5B#8 ∧ 1 < ([0x5B#8, 0x2B#8] : List Byte).length ∧
      ∀ m, scanForward [0x5B#8, 0x2B#8] 0 = .found m → 1 < m := by
  refine ⟨by decide, by decide, fun m h => ?_⟩
  rw [show scanForward [0x5B#8, 0x2B#8] 0 = .unmatched by decide] at h
  cases h
theorem witness_nesting_backward :
    ([0x2B#8, 0x5D#8] : List Byte)[1]? = some 0x5D#8 ∧ ∀ m, scanBackward [0x2B#8, 0x5D#8] 1 = .found m → m < 0 := by
  refine ⟨by decide, fun m h => ?_⟩
  rw [show scanBackward [0x2B#8, 0x5D#8] 1 = .unmatched by decide] at h
  cases h
theorem witness_unbalanced_forward :
    (eng [0x5B#8] [0#8] 0 0).currentCell = some 0#8 ∧ (eng [0x5B#8] [0#8] 0 0).prog[0]? = some 0x5B#8 ∧
      ∀ m, 0 < m → m < (eng [0x5B#8] [0#8] 0 0).prog.length → opens (slice [0x5B#8] 0 m) ≠ closes (slice [0x5B#8] 0 m) := by
  refine ⟨by decide, by decide, fun m h1 h2 => ?_⟩
  simp [eng] at h2
  omega
theorem witness_unbalanced_backward :
    (eng [0x5D#8] [1#8] 0 0).currentCell = some 1#8 ∧ (eng [0x5D#8] [1#8] 0 0).prog[0]? = some 0x5D#8 ∧
      ∀ m, m < (eng [0x5D#8] [1#8] 0 0).pc → opens (slice [0x5D#8] m 0) ≠ closes (slice [0x5D#8] m 0) :=
  ⟨by decide, by decide, fun m h => absurd h (Nat.not_lt_zero m)⟩
/-- A bracket with no partner whose cell makes no scan, in each direction. -/
theorem witness_unbalanced_no_scan :
    (eng [0x5B#8] [255#8] 0 0).currentCell = some 255#8 ∧ (eng [0x5B#8] [255#8] 0 0).prog[0]? = some 0x5B#8 ∧
      (eng [0x5D#8] [0#8] 0 0).currentCell = some 0#8 ∧ (eng [0x5D#8] [0#8] 0 0).prog[0]? = some 0x5D#8 := by decide
/-- The first index past the program. -/
theorem witness_jbnz_outside :
    (eng [0x5D#8] [1#8] 1 0).currentCell = some 1#8 ∧ (eng [0x5D#8] [1#8] 1 0).prog.length ≤ (eng [0x5D#8] [1#8] 1 0).pc := by
  decide
theorem witness_frames :
    (∃ t, exec .out (eng [] [4#8] 0 0) = .next t) ∧ (∃ t, exec .pdec (eng [] [] 0 0) = .next t) ∧
      (∃ t, exec .cinc (eng [] [4#8] 0 0) = .next t) ∧ ∃ t, exec .cdec full = .next t :=
  ⟨⟨_, rfl⟩, ⟨_, rfl⟩, ⟨_, rfl⟩, ⟨_, rfl⟩⟩
theorem witness_faults_raised :
    full.runState ≠ .faulted ∧ Raises .pinc full .pointerOverflow ∧ Raises .cinc full .tapeOverflow ∧
      Raises .out full .absentCellRead ∧ Raises .pdec { full with dp := 0 } .pointerUnderflow ∧
      Raises .jfz (eng [0x5B#8] [0#8] 0 0) .unmatchedBracket ∧ Raises .jbnz (eng [0x5D#8] [1#8] 0 0) .unmatchedBracket :=
  ⟨by decide, ⟨_, rfl, rfl, rfl⟩, ⟨_, rfl, rfl, rfl⟩, ⟨_, rfl, rfl, rfl⟩, ⟨_, rfl, rfl, rfl⟩, ⟨_, rfl, rfl, rfl⟩,
    ⟨_, rfl, rfl, rfl⟩⟩
theorem witness_fault_entry : ∃ t, exec .out full = .next t ∧ t.runState = .faulted ∧ full.runState ≠ .faulted :=
  ⟨_, rfl, rfl, by decide⟩
theorem witness_absent_cell : full.tape.length ≤ full.dp := by decide
theorem witness_step_runs :
    full.runState = .running ∧ full.prog[full.pc]? = some 0x3E#8 ∧ full.hostScript = [] ∧
      { full with hostScript := [none] }.hostScript = none :: [] := by decide
theorem witness_halting_step :
    (eng [0x2B#8] [] 1 0).hostScript = [] ∧ (eng [0x2B#8] [] 1 0).runState = .running ∧
      (eng [0x2B#8] [] 1 0).prog.length ≤ (eng [0x2B#8] [] 1 0).pc ∧
      { eng [0x2B#8] [] 1 0 with hostScript := [none, some .run] }.hostScript = none :: [some .run] := by decide
theorem witness_pc_after_jumps :
    (∃ t, exec .jfz (eng [0x5B#8, 0x5D#8] [0#8] 0 0) = .next t ∧ t.runState ≠ .faulted ∧
      (eng [0x5B#8, 0x5D#8] [0#8] 0 0).currentCell = some 0#8) ∧
    (∃ t, exec .jfz (eng [0x5B#8] [1#8] 0 0) = .next t ∧ t.runState ≠ .faulted ∧
      (eng [0x5B#8] [1#8] 0 0).currentCell ≠ some 0#8) ∧
    (∃ t, exec .jbnz (eng [0x5B#8, 0x5D#8] [1#8] 1 0) = .next t ∧ t.runState ≠ .faulted ∧
      (eng [0x5B#8, 0x5D#8] [1#8] 1 0).currentCell ≠ some 0#8) ∧
    (∃ t, exec .jbnz (eng [0x5D#8] [0#8] 0 0) = .next t ∧ t.runState ≠ .faulted ∧
      (eng [0x5D#8] [0#8] 0 0).currentCell = some 0#8) ∧
    ∃ t, exec .nopin (eng [0x2C#8] [] 0 0) = .next t ∧ t.runState ≠ .faulted :=
  ⟨⟨_, rfl, by decide, by decide⟩, ⟨_, rfl, by decide, by decide⟩, ⟨_, rfl, by decide, by decide⟩,
    ⟨_, rfl, by decide, by decide⟩, ⟨_, rfl, by decide⟩⟩
theorem witness_program_immutable :
    full.runState ≠ .idle ∧ full.hostScript.head? ≠ some (some .rst) ∧ (∃ t, Machine.step full = .next t) ∧
      HostEvent.run ≠ .rst :=
  ⟨by decide, by decide, ⟨_, rfl⟩, by decide⟩
/-- The halting turn, and a load that comes too late, each as the next entry of the script. -/
theorem witness_program_immutable_scripts :
    ({ full with pc := 1, hostScript := [none] }.hostScript.head? ≠ some (some .rst) ∧
      ∃ t, Machine.step { full with pc := 1, hostScript := [none] } = .next t ∧ t.runState = .halted) ∧
    { full with hostScript := [some (.load 0#8)] }.hostScript.head? ≠ some (some .rst) ∧
      ∃ t, Machine.step { full with hostScript := [some (.load 0#8)] } = .next t :=
  ⟨⟨by decide, _, rfl, rfl⟩, by decide, _, rfl⟩
/-- The invariant holds of a running engine with full parameters and of one that has faulted. -/
theorem witness_inv : Inv full ∧ Inv (full.raiseFault .pointerOverflow) := ⟨by decide, by decide⟩
theorem witness_fault_explained :
    FaultExplained full ∧ FaultExplained (full.raiseFault .pointerOverflow) ∧ ∃ t, Machine.step full = .next t :=
  ⟨trivial, ⟨by decide, by decide⟩, _, rfl⟩
theorem witness_pc_width : Inv full ∧ full.params.progMax = some 1 ∧ pcWidth full.params = some 1 ∧
    depthWidth full.params = some 1 := by decide
theorem witness_reachable : Reaches (start Params.unbounded [some .run]) { State.reset with runState := .running } :=
  .step .refl rfl
/-- The former runs differ: one faulted, one running. -/
theorem witness_reset_erases_history :
    (full.raiseFault .pointerOverflow).params = full.params ∧
      (∃ t, RunsTo 1 { full.raiseFault .pointerOverflow with hostScript := [some .rst] } t) ∧
      ∃ t, RunsTo 1 { full with hostScript := [some .rst] } t :=
  ⟨rfl, ⟨_, rfl⟩, ⟨_, rfl⟩⟩
theorem witness_load_clauses :
    State.reset.runState = .idle ∧ State.reset.params.progMax = none ∧
      { State.reset with params := { Params.unbounded with progMax := some 0 } }.params.progMax = some State.reset.prog.length ∧
      full.runState ≠ .idle := by decide
/-- The last free byte of a finite store. -/
theorem witness_load_last_byte :
    ∀ m, { State.reset with params := { Params.unbounded with progMax := some 1 } }.params.progMax = some m →
      State.reset.prog.length < m := by
  intro m h
  cases h
  decide
/-- The invariant with a step to take it over: the state before and the answer. -/
theorem witness_step_from_inv : Inv full ∧ ∃ t, Machine.step full = .next t := ⟨by decide, _, rfl⟩
theorem witness_run_clauses :
    State.reset.runState = .idle ∧ State.reset.loadError = false ∧ { State.reset with loadError := true }.loadError = true ∧
      full.runState ≠ .idle := by decide
theorem witness_loaded_bytes :
    ∀ m, { State.reset with params := { Params.unbounded with progMax := some 5 } }.params.progMax = some m →
      State.reset.prog.length + ([0x00#8, 0x0A#8, 0x2B#8, 0xFF#8, 0x5B#8] : List Byte).length ≤ m := by
  intro m h
  cases h
  decide
theorem witness_host_script :
    { full with hostScript := [some HostEvent.rst] }.hostScript = some HostEvent.rst :: [] := rfl
theorem witness_boot : ∀ m, full.params.progMax = some m → ([0x2E#8] : List Byte).length ≤ m := by
  intro m h
  cases h
  decide
theorem witness_host_frame : HostEvent.load 0x2E#8 ≠ .rst ∧ full.runState ≠ .idle := by decide
theorem witness_terminal :
    (full.raiseFault .pointerOverflow).runState = .faulted ∧ (full.setRunState .halted).runState = .halted ∧
      NoReset [some (HostEvent.load 0#8), none, some .run] ∧
      ∃ t, RunsTo 1 (full.raiseFault .pointerOverflow) t :=
  ⟨rfl, rfl, by unfold NoReset; decide, ⟨_, rfl⟩⟩
/-- Two turns with entries that say nothing, and one past the script's end; the reset after the two stays for later. -/
theorem witness_idle_waits :
    State.reset.runState = .idle ∧ (∀ e ∈ State.reset.hostScript.take 1, e = none) ∧
      ∀ e ∈ { State.reset with hostScript := [none, none, some .rst] }.hostScript.take 2, e = none := by decide
/-- V4: the empty program ends normally in its first step. -/
theorem witness_ends_normally :
    Inv (eng [] [] 0 0) ∧ NoReset (eng [] [] 0 0).hostScript ∧ ∃ t, EndsNormally 1 (eng [] [] 0 0) t := by
  refine ⟨by decide, by unfold NoReset; decide, ⟨_, rfl, rfl, ?_⟩⟩
  intro j hj u hu
  obtain rfl : j = 0 := by omega
  injection (show Host.Outcome.next (eng [] [] 0 0) = .next u from hu) with h
  rw [← h]
  decide

end Sys2Proof.Tests
end

section
/-! PROOFS. The reset values and the status word (10_state.md R23, R26). -/

namespace Sys2Proof.Machine

/-! ### The reset values -/

/-- The program store of a reset engine holds no byte (10_state.md R16, R26). -/
@[simp] theorem State.reset_progRead (i : Nat) : State.reset.progRead i = none :=
  (Memory.read_eq_none_iff State.reset.prog i).mpr (Nat.zero_le i)

/-- The tape of a reset engine has no cell (10_state.md R14, R26). -/
@[simp] theorem State.reset_tapeRead (i : Nat) : State.reset.tapeRead i = none :=
  (Memory.read_eq_none_iff State.reset.tape i).mpr (Nat.zero_le i)

/-- Settles O45: the scalar items of R26 are fields of `State.reset`, and a store of length 0 has no byte anywhere. -/
theorem resetValues : Obligations.ResetValues :=
  ⟨rfl, State.reset_progRead, rfl, State.reset_tapeRead, rfl, rfl, rfl, rfl, rfl, rfl, rfl, rfl⟩

/-! ### The status word -/

section
variable (s : State)

@[simp] theorem State.status_state : s.status.state = s.runState.code := rfl
@[simp] theorem State.status_faultCause : s.status.faultCause = s.faultCause.code := rfl
@[simp] theorem State.status_faultDir : s.status.faultDir = s.faultDir.code := rfl
@[simp] theorem State.status_loadError : s.status.loadError = BitVec.ofBool s.loadError := rfl
@[simp] theorem State.status_faultPc : s.status.faultPc = s.faultPc := rfl

end

/-- Settles O56: each field shows the code of one item of the state, so a case split on that item alone gives the
number. -/
theorem statusWordFields : Obligations.StatusWordFields := by
  intro s
  refine ⟨?state, ?cause, ?dir, ?loadError, s.status_faultPc⟩
  case state => rw [State.status_state]; cases s.runState <;> rfl
  case cause => rw [State.status_faultCause]; cases s.faultCause <;> rfl
  case dir => rw [State.status_faultDir]; cases s.faultDir <;> rfl
  case loadError => rw [State.status_loadError]; cases s.loadError <;> rfl

end Sys2Proof.Machine
end

section
/-! PROOFS. The tape and the program store (20_memory.md): where an append goes, who grows the tape, and what loading
puts into the program store. -/

namespace Sys2Proof.Machine

/-! ### The end of the tape (20_memory.md R36) -/

section
variable (s : State)

@[simp] theorem State.advance_tapeRead (a : Nat) : s.advance.tapeRead a = s.tapeRead a := rfl

@[simp] theorem State.advance_currentCell : s.advance.currentCell = s.currentCell := rfl

/-- The appended cell stands at index `tape_len`. -/
@[simp] theorem State.tapeAppend_tapeRead_end (v : Byte) : (s.tapeAppend v).tapeRead s.tape.length = some v :=
  Memory.read_append_end s.tape v

/-- An append leaves every other index of the tape as it was. -/
theorem State.tapeAppend_tapeRead_other (v : Byte) {a : Nat} (h : a ≠ s.tape.length) :
    (s.tapeAppend v).tapeRead a = s.tapeRead a :=
  Memory.read_append_other s.tape v h

end

/-- After an append on an absent current cell, the current cell is the new one when `dp` was `tape_len`, and is still
absent when `dp` was beyond it. -/
theorem State.tapeAppend_currentCell_of_absent {s : State} (v : Byte) (h : s.tape.length ≤ s.dp) :
    (s.tapeAppend v).currentCell = if s.dp = s.tape.length then some v else none := by
  have habs : s.tapeRead s.dp = none := s.currentCell_eq_none_iff.mpr h
  show (s.tapeAppend v).tapeRead s.dp = _
  split_ifs with hdp
  · rw [hdp, State.tapeAppend_tapeRead_end]
  · rw [State.tapeAppend_tapeRead_other s v hdp, habs]

/-! ### CINC and CDEC on an absent cell (60_exceptions.md R88) -/

section
variable {i : Instr} {s : State}

/-- On an absent cell both are the growth controller with the value 1. -/
theorem exec_of_absent (hi : i = .cinc ∨ i = .cdec) (h : s.tape.length ≤ s.dp) : exec i s = growTape 1#8 s := by
  have habs : s.currentCell = none := s.currentCell_eq_none_iff.mpr h
  rcases hi with rfl | rfl
  · simp [exec, execCinc, updateCell, habs]
  · simp [exec, execCdec, updateCell, habs]

/-- With room, the tape grows. -/
theorem exec_absent_of_room (hi : i = .cinc ∨ i = .cdec) (h : s.tape.length ≤ s.dp)
    (hroom : s.params.tapeMax ≠ some s.tape.length) : exec i s = .next (s.tapeAppend 1#8).advance := by
  rcases growTape_cases 1#8 s with ⟨hfull, -⟩ | ⟨-, hg⟩
  · exact absurd hfull hroom
  · rw [exec_of_absent hi h, hg]

/-- With a full tape, `TapeOverflow` is raised. -/
theorem exec_absent_of_full (hi : i = .cinc ∨ i = .cdec) (h : s.tape.length ≤ s.dp)
    (hfull : s.params.tapeMax = some s.tape.length) : exec i s = .next (s.raiseFault .tapeOverflow) := by
  rcases growTape_cases 1#8 s with ⟨-, hg⟩ | ⟨hroom, -⟩
  · rw [exec_of_absent hi h, hg]
  · exact absurd hfull hroom

end

/-- Settles O11: with room the answer is `tapeAppend` and the advance of `pc`, whose reads are those of an append; on a
full tape it is fault entry. -/
theorem appendGoesToTheEndOfTheTape : Obligations.AppendGoesToTheEndOfTheTape := by
  intro i s hi habs
  refine ⟨fun hroom => ⟨_, exec_absent_of_room hi habs hroom, ?length, ?new, fun a ha => ?other, rfl, ?current⟩,
    fun hfull => ?full⟩
  case length => simp
  case new => simp
  case other => simpa using s.tapeAppend_tapeRead_other 1#8 ha
  case current => simpa using State.tapeAppend_currentCell_of_absent 1#8 habs
  case full => exact exec_absent_of_full hi habs hfull

/-! ### Who writes the tape (20_memory.md R37) -/

/-- Executing an instruction keeps the tape, or is CINC or CDEC, which rewrites the existing current cell or, where that
is absent, appends a cell of value 1. -/
theorem exec_tape_cases {i : Instr} {s t : State} (h : exec i s = .next t) :
    t.tape = s.tape ∨
      ((i = .cinc ∨ i = .cdec) ∧ s.dp < s.tape.length ∧ ∃ v, t.tape = s.tape.write s.dp v) ∨
      ((i = .cinc ∨ i = .cdec) ∧ s.tape.length ≤ s.dp ∧ t.tape = s.tape.append 1#8) := by
  have he := exec_effect i s
  rw [h] at he
  cases he
  case cincWrite v hv => exact .inr (.inl ⟨.inl rfl, State.lt_of_currentCell hv, _, rfl⟩)
  case cdecWrite v hv => exact .inr (.inl ⟨.inr rfl, State.lt_of_currentCell hv, _, rfl⟩)
  case cincAppend hc _ => exact .inr (.inr ⟨.inl rfl, s.currentCell_eq_none_iff.mp hc, rfl⟩)
  case cdecAppend hc _ => exact .inr (.inr ⟨.inr rfl, s.currentCell_eq_none_iff.mp hc, rfl⟩)
  all_goals exact .inl rfl

@[simp] theorem hostReset_tape (s : State) : (hostReset s).tape = [] := rfl

@[simp] theorem hostLoad_tape (b : Byte) (s : State) : (hostLoad b s).tape = s.tape := by
  rcases hostLoad_cases b s with ⟨-, -, h⟩ | ⟨-, -, h⟩ | ⟨-, h⟩ <;> rw [h]

@[simp] theorem hostRun_tape (s : State) : (hostRun s).tape = s.tape := by
  rcases hostRun_cases s with ⟨-, -, h⟩ | ⟨-, h⟩ <;> rw [h]
  rfl

/-- Settles O14: an in-place write keeps the length, so an append is the only growth; of the host's events only reset
touches the tape. -/
theorem tapeGrowsOneWay : Obligations.TapeGrowsOneWay := by
  refine ⟨fun i s t h => ?instruction, fun e s => ?event⟩
  case instruction =>
    rcases exec_tape_cases h with hkeep | ⟨-, -, v, hwrite⟩ | ⟨hi, habs, happend⟩
    · exact .inl (by rw [hkeep])
    · exact .inl (by rw [hwrite, Memory.length_write])
    · exact .inr ⟨hi, habs, happend⟩
  case event =>
    cases e with
    | rst => simp [hostEvent]
    | load b => simp [hostEvent]
    | run => simp [hostEvent]

/-! ### Loading (20_memory.md R29, R31, R32) -/

section
variable {s : State} (b : Byte)

/-- In `Idle` with room a load appends its byte. -/
theorem hostLoad_of_room (hidle : s.runState = .idle) (hroom : s.params.progMax ≠ some s.prog.length) :
    hostLoad b s = { s with prog := s.prog ++ [b] } := by
  rcases hostLoad_cases b s with ⟨-, hfull, -⟩ | ⟨-, -, h⟩ | ⟨hbusy, -⟩
  · exact absurd hfull hroom
  · exact h
  · exact absurd hidle hbusy

/-- In `Idle` with a full store a load only sets `load_error`. -/
theorem hostLoad_of_full (hidle : s.runState = .idle) (hfull : s.params.progMax = some s.prog.length) :
    hostLoad b s = { s with loadError := true } := by
  rcases hostLoad_cases b s with ⟨-, -, h⟩ | ⟨-, hroom, -⟩ | ⟨hbusy, -⟩
  · exact h
  · exact absurd hfull hroom
  · exact absurd hidle hbusy

/-- Outside `Idle` a load is ignored. -/
theorem hostLoad_of_not_idle (hbusy : s.runState ≠ .idle) : hostLoad b s = s := by
  rcases hostLoad_cases b s with ⟨hidle, -⟩ | ⟨hidle, -⟩ | ⟨-, h⟩
  · exact absurd hidle hbusy
  · exact absurd hidle hbusy
  · exact h

end

/-- Settles O47: a length below every capacity is not at capacity, and the three clauses are the three ways a load
ends. -/
theorem loadEventRule : Obligations.LoadEventRule := by
  intro s b
  refine ⟨fun hidle hroom => ?room, hostLoad_of_full b, hostLoad_of_not_idle b⟩
  case room => exact hostLoad_of_room b hidle fun hfull => Nat.lt_irrefl _ (hroom _ hfull)

/-- Loading a byte sequence that fits appends it to the program store and changes nothing else: the first load leaves an
idle engine with room for the rest. -/
theorem foldl_load_of_room (bs : List Byte) {s : State} (hidle : s.runState = .idle)
    (hroom : ∀ m, s.params.progMax = some m → s.prog.length + bs.length ≤ m) :
    bs.foldl (fun u b => hostEvent (.load b) u) s = { s with prog := s.prog ++ bs } := by
  induction bs generalizing s with
  | nil => simp
  | cons b bs ih =>
    have hfirst : hostEvent (.load b) s = { s with prog := s.prog ++ [b] } := by
      refine hostLoad_of_room b hidle fun hfull => ?_
      have hfits := hroom _ hfull
      rw [List.length_cons] at hfits
      omega
    have hrest : ∀ m, s.params.progMax = some m → (s.prog ++ [b]).length + bs.length ≤ m := by
      intro m hm
      have hfits := hroom m hm
      rw [List.length_cons] at hfits
      rw [List.length_append, List.length_singleton]
      omega
    rw [List.foldl_cons, hfirst, ih (s := { s with prog := s.prog ++ [b] }) hidle hrest]
    simp

/-- Past the old length, a memory with bytes appended reads those bytes in order. -/
theorem Memory.read_append_bytes (m : Memory) (bs : List Byte) (k : Nat) :
    Memory.read (m ++ bs) (m.length + k) = bs[k]? := by
  rw [Memory.read, List.getElem?_append_right (Nat.le_add_right _ k), Nat.add_sub_cancel_left]

/-- Settles O49: the bytes are appended, by induction over the sequence, and reading past the old length reads them. -/
theorem loadedBytesReadBack : Obligations.LoadedBytesReadBack := by
  intro bs s hidle hroom
  have hload := foldl_load_of_room bs hidle hroom
  refine ⟨hload, fun k => ?_⟩
  rw [hload]
  exact Memory.read_append_bytes s.prog bs k

end Sys2Proof.Machine
end

section
/-! PROOFS. The encoding (30_encoding.md R51 to R53): decode and encode undo each other, and no byte is illegal. -/

namespace Sys2Proof

/-! ### Decode and encode (30_encoding.md R51, R52) -/

/-- A NOP is well formed exactly when its byte is none of the eight assigned ones. -/
theorem Instr.wf_nop_iff {b : Byte} : (Instr.nop b).wf = true ↔ b ∉ Opcode.assigned := by
  simp [Instr.wf]

/-- An unassigned byte decodes to NOP of that byte. -/
theorem decode_of_not_assigned {b : Byte} (h : b ∉ Opcode.assigned) : decode b = .nop b := by
  simp only [Opcode.assigned, List.mem_cons, List.not_mem_nil, or_false, not_or] at h
  simp [decode, h]

/-- Decoding the byte of a well-formed instruction gives it back. -/
theorem decode_encode {i : Instr} (h : i.wf = true) : decode (encode i) = i := by
  cases i with
  | nop b => exact decode_of_not_assigned (Instr.wf_nop_iff.mp h)
  | pinc | pdec | cinc | cdec | out | jfz | jbnz | nopin => rfl

/-- Every byte is the encoding of the instruction it decodes to. -/
@[simp] theorem encode_decode (b : Byte) : encode (decode b) = b := by
  unfold decode
  split_ifs <;> simp [encode, *]

@[simp] theorem decodeBytes_cons (b : Byte) (rest : List Byte) : decodeBytes (b :: rest) = .ok (decode b, rest) := rfl

/-- Settles O1: the map's rows are instances of `decode_encode`. -/
theorem decodeFollowsOpcodeMap : Obligations.DecodeFollowsOpcodeMap :=
  ⟨decode_encode (i := .pinc) rfl, decode_encode (i := .pdec) rfl, decode_encode (i := .cinc) rfl,
    decode_encode (i := .cdec) rfl, decode_encode (i := .out) rfl, decode_encode (i := .jfz) rfl,
    decode_encode (i := .jbnz) rfl, decode_encode (i := .nopin) rfl, fun _ => decode_of_not_assigned,
    decodeBytes_cons⟩

end Sys2Proof

namespace Sys2Proof.Machine

/-! ### The no-op bytes (30_encoding.md R53, 40_dispatch.md R63, R64) -/

@[simp] theorem exec_nopin (s : State) : exec .nopin s = .next s.advance := rfl

@[simp] theorem exec_nop (b : Byte) (s : State) : exec (.nop b) s = .next s.advance := rfl

/-- A byte that is not one of the seven operating instructions only advances `pc`: it is NOPIN's byte or an unassigned
one. -/
theorem exec_decode_of_not_operating {b : Byte}
    (h : b ∉ [Opcode.pinc, Opcode.pdec, Opcode.cinc, Opcode.cdec, Opcode.out, Opcode.jfz, Opcode.jbnz]) (s : State) :
    exec (decode b) s = .next s.advance := by
  by_cases hin : b = Opcode.nopin
  · subst hin
    exact exec_nopin s
  · have hfree : b ∉ Opcode.assigned := by simpa [Opcode.assigned, hin] using h
    rw [decode_of_not_assigned hfree, exec_nop]

/-! ### No byte faults in every state (30_encoding.md R53) -/

/-- With the data pointer off both ends, an existing nonzero cell and, for JBNZ, a matching bracket behind `pc`, no
instruction raises a fault: `run_state` stays. -/
theorem exec_keeps_runState_of_safe {i : Instr} {s : State} {v : Byte} (hlow : s.dp ≠ 0)
    (hhigh : s.params.dpMax ≠ some s.dp) (hcell : s.currentCell = some v) (hv : v ≠ 0#8)
    (hmatch : i = .jbnz → ∃ m, scanBackward s.prog s.pc = .found m) :
    ∃ t, exec i s = .next t ∧ t.runState = s.runState := by
  have he := exec_effect i s
  generalize exec i s = a at he
  cases he
  case pincOverflow hmax => exact absurd hmax hhigh
  case pdecUnderflow h0 => exact absurd h0 hlow
  case cincAppend hc _ | cincOverflow hc _ | cdecAppend hc _ | cdecOverflow hc _ | absent hc _ =>
    exact absurd (hcell.symm.trans hc) (Option.some_ne_none v)
  case jfzUnmatched hc _ => exact absurd (Option.some.inj (hcell.symm.trans hc)) hv
  case jbnzUnmatched hr | jbnzOutside hr =>
    obtain ⟨m, hm⟩ := hmatch rfl
    simp [hm] at hr
  all_goals exact ⟨_, rfl, rfl⟩

/-- A running engine at the byte `b`, with a `[` behind it and `dp` at the second of two cells of value 1. -/
def runningAfterOpen (b : Byte) : State :=
  { State.reset with prog := [Opcode.jfz, b], pc := 1, tape := [1#8, 1#8], dp := 1, runState := .running }

/-- Whatever the byte, executing it in `runningAfterOpen` raises no fault; only JBNZ's scan looks at it, and then it is a
`]` that the `[` matches. -/
theorem exec_runningAfterOpen (b : Byte) :
    ∃ t, exec (decode b) (runningAfterOpen b) = .next t ∧ t.runState = .running := by
  refine exec_keeps_runState_of_safe (v := 1#8) (show 1 ≠ 0 by decide) (show none ≠ some 1 by decide) rfl (by decide)
    fun hi => ⟨0, ?_⟩
  have hb : b = Opcode.jbnz := by rw [← encode_decode b, hi]; rfl
  subst hb
  decide

/-- Settles O4: a byte outside the seven is a no-op, and `runningAfterOpen` is a state in which no byte faults. -/
theorem noByteIsIllegal : Obligations.NoByteIsIllegal := by
  refine ⟨decodeBytes_cons, fun b hb s => exec_decode_of_not_operating hb s, fun b => ?_⟩
  obtain ⟨t, hexec, hrun⟩ := exec_runningAfterOpen b
  exact ⟨runningAfterOpen b, t, rfl, rfl, hexec, hrun⟩

end Sys2Proof.Machine
end

section
/-! PROOFS. Dispatch (40_dispatch.md R62 to R64): where `pc` stands after an instruction, and the no-ops. -/

namespace Sys2Proof.Machine

/-! ### A match is not the bracket the scan starts from (44_jump.md R76, R77) -/

/-- From a `[` the forward scan's match lies strictly after it. -/
theorem lt_of_scanForward_found {prog : Memory} {p m : Nat} (h : scanForward prog p = .found m)
    (hopen : prog.read p = some Opcode.jfz) : p < m := by
  obtain ⟨hle, -, hclose⟩ := scanForward_found h
  have hne : p ≠ m := by
    rintro rfl
    exact absurd (hopen.symm.trans hclose) (by decide)
  exact Nat.lt_of_le_of_ne hle hne

/-- From a `]` the backward scan's match lies strictly before it. -/
theorem lt_of_scanBackward_found {prog : Memory} {p m : Nat} (h : scanBackward prog p = .found m)
    (hclose : prog.read p = some Opcode.jbnz) : m < p := by
  obtain ⟨hle, hopen⟩ := scanBackward_found h
  have hne : m ≠ p := by
    rintro rfl
    exact absurd (hopen.symm.trans hclose) (by decide)
  exact Nat.lt_of_le_of_ne hle hne

/-! ### `pc` after an instruction that completes (40_dispatch.md R62) -/

/-- An instruction that completes advances `pc` by one, a jump only where its zero test falls through, or it is a taken
jump and `pc` is one past the match of its scan. -/
theorem exec_pc_cases {i : Instr} {s t : State} (h : exec i s = .next t) (ht : t.runState ≠ .faulted) :
    (t.pc = s.pc + 1 ∧ (i = .jfz → s.currentCell ≠ some 0#8) ∧ (i = .jbnz → s.currentCell = some 0#8)) ∨
      (i = .jfz ∧ s.currentCell = some 0#8 ∧ ∃ m, scanForward s.prog s.pc = .found m ∧ t.pc = m + 1) ∨
      (i = .jbnz ∧ s.currentCell ≠ some 0#8 ∧ ∃ m, scanBackward s.prog s.pc = .found m ∧ t.pc = m + 1) := by
  have he := exec_effect i s
  rw [h] at he
  cases he
  case jfzFall v hc hv => exact .inl ⟨rfl, fun _ hz => hv (Option.some.inj (hc.symm.trans hz)), nofun⟩
  case jfzJump m hz hm => exact .inr (.inl ⟨rfl, hz, m, hm, rfl⟩)
  case jbnzFall hz => exact .inl ⟨rfl, nofun, fun _ => hz⟩
  case jbnzJump v m hc hv hm =>
    exact .inr (.inr ⟨rfl, fun hz => hv (Option.some.inj (hc.symm.trans hz)), m, hm, rfl⟩)
  case pinc | pdec | cincWrite | cincAppend | cdecWrite | cdecAppend | out | nopin | nop =>
    exact .inl ⟨rfl, nofun, nofun⟩
  case pincOverflow | pdecUnderflow | cincOverflow | cdecOverflow | absent | jfzUnmatched | jbnzUnmatched =>
    exact absurd rfl ht

/-- Settles O35: each way of `exec_pc_cases` meets the clauses of its own and contradicts the premises of the others; a
scan that starts from its own bracket finds another byte. -/
theorem pcAfterEveryInstruction : Obligations.PcAfterEveryInstruction := by
  intro i s t _ hexec ht
  rcases exec_pc_cases hexec ht with ⟨hpc, hjfz, hjbnz⟩ | ⟨rfl, hz, m, hm, hpc⟩ | ⟨rfl, hnz, m, hm, hpc⟩
  · exact ⟨fun _ _ => hpc, fun _ _ => hpc, fun hi hz => absurd hz (hjfz hi), fun _ _ => hpc,
      fun hi hnz => absurd (hjbnz hi) hnz⟩
  · exact ⟨fun hi => absurd rfl hi, fun _ hnz => absurd hz hnz,
      fun _ _ => ⟨m, hm, hpc, lt_of_scanForward_found hm⟩, nofun, nofun⟩
  · exact ⟨fun _ hi => absurd rfl hi, nofun, nofun, fun _ hz => absurd hz hnz,
      fun _ _ => ⟨m, hm, hpc, lt_of_scanBackward_found hm⟩⟩

/-! ### The no-ops (40_dispatch.md R63, R64) -/

/-- Settles O26: the bytes without a row are the unassigned ones, and NOP answers the advance of `pc`. -/
theorem nopRule : Obligations.NopRule :=
  fun b hb => ⟨decode_of_not_assigned hb, exec_nop b⟩

/-- Settles O27: NOPIN answers the advance of `pc`, which is NOP's answer for any byte. -/
theorem nopinRule : Obligations.NopinRule :=
  ⟨decode_encode (i := .nopin) rfl, fun s => ⟨exec_nopin s, fun b => (exec_nopin s).trans (exec_nop b s).symm⟩⟩

end Sys2Proof.Machine
end

section
/-! PROOFS. The data-pointer instructions (41_pointer.md R67, R68): one equation for each side of the bound that an
instruction tests, PINC at `DP_MAX` and PDEC at 0. -/

namespace Sys2Proof.Machine

section
variable {s : State}

/-! ### PINC (41_pointer.md R67, 60_exceptions.md R87) -/

/-- Away from `DP_MAX` PINC completes with `dp` one higher. -/
theorem exec_pinc_of_ne_dpMax (h : s.params.dpMax ≠ some s.dp) :
    exec .pinc s = .next (s.setDp (s.dp + 1)).advance := by
  simp [exec, execPinc, atMax, h]

/-- At `DP_MAX` PINC is fault entry. -/
theorem exec_pinc_of_eq_dpMax (h : s.params.dpMax = some s.dp) :
    exec .pinc s = .next (s.raiseFault .pointerOverflow) := by
  simp [exec, execPinc, atMax, h]

/-! ### PDEC (41_pointer.md R68, 60_exceptions.md R84) -/

/-- Above 0 PDEC completes with `dp` one lower. -/
theorem exec_pdec_of_ne_zero (h : s.dp ≠ 0) : exec .pdec s = .next (s.setDp (s.dp - 1)).advance := by
  simp [exec, execPdec, h]

/-- At 0 PDEC is fault entry. -/
theorem exec_pdec_of_eq_zero (h : s.dp = 0) : exec .pdec s = .next (s.raiseFault .pointerUnderflow) := by
  simp [exec, execPdec, h]

end

/-- Settles O5: the byte is PINC's encoding, and the two clauses are PINC's two equations, with the next states written
out. -/
theorem pincRule : Obligations.PincRule :=
  ⟨decode_encode (i := .pinc) rfl, fun _ => ⟨exec_pinc_of_ne_dpMax, exec_pinc_of_eq_dpMax⟩⟩

/-- Settles O6: the byte is PDEC's encoding, and the two clauses are PDEC's two equations, with the next states written
out. -/
theorem pdecRule : Obligations.PdecRule :=
  ⟨decode_encode (i := .pdec) rfl, fun _ => ⟨exec_pdec_of_ne_zero, exec_pdec_of_eq_zero⟩⟩

end Sys2Proof.Machine
end

section
/-! PROOFS. The cell instructions (42_cell.md R70, R71): the cell ALU as arithmetic modulo 256, and one equation each for
CINC and CDEC on an existing cell. On an absent cell both are the growth controller (`exec_absent_of_room`,
`exec_absent_of_full`). -/

namespace Sys2Proof.Machine

/-! ### The cell ALU (42_cell.md R72) -/

/-- Adding a constant to a byte is addition of numbers modulo 256. -/
theorem byte_add_ofNat (v : Byte) (k : Nat) : v + BitVec.ofNat 8 k = BitVec.ofNat 8 ((v.toNat + k) % 256) := by
  apply BitVec.eq_of_toNat_eq
  simp

theorem cellAdd1_eq (v : Byte) : cellAdd1 v = BitVec.ofNat 8 ((v.toNat + 1) % 256) := byte_add_ofNat v 1

theorem cellSub1_eq (v : Byte) : cellSub1 v = BitVec.ofNat 8 ((v.toNat + 255) % 256) := byte_add_ofNat v 255

/-! ### CINC and CDEC on an existing cell -/

section
variable {s : State}

/-- An existing current cell is rewritten in place. -/
theorem updateCell_of_lt (f : Byte → Byte) (appended : Byte) (h : s.dp < s.tape.length) :
    updateCell f appended s = .next (s.tapeWrite s.dp (f s.tape[s.dp])).advance := by
  simp [updateCell, State.currentCell_of_lt h]

/-- On an existing cell CINC completes with `v` rewritten to `(v + 1) mod 256`. -/
theorem exec_cinc_of_lt (h : s.dp < s.tape.length) :
    exec .cinc s = .next (s.tapeWrite s.dp (BitVec.ofNat 8 ((s.tape[s.dp].toNat + 1) % 256))).advance := by
  rw [← cellAdd1_eq]
  exact updateCell_of_lt cellAdd1 1#8 h

/-- On an existing cell CDEC completes with `v` rewritten to `(v + 255) mod 256`. -/
theorem exec_cdec_of_lt (h : s.dp < s.tape.length) :
    exec .cdec s = .next (s.tapeWrite s.dp (BitVec.ofNat 8 ((s.tape[s.dp].toNat + 255) % 256))).advance := by
  rw [← cellSub1_eq]
  exact updateCell_of_lt cellSub1 1#8 h

end

/-- Settles O9: the byte is CINC's encoding; an existing cell is rewritten in place, an absent one is the growth
controller's two answers, with the next states written out. -/
theorem cincRule : Obligations.CincRule :=
  ⟨decode_encode (i := .cinc) rfl, fun _ =>
    ⟨exec_cinc_of_lt, exec_absent_of_room (.inl rfl), exec_absent_of_full (.inl rfl)⟩⟩

/-- Settles O10: as for CINC with the other operation of the cell ALU; an absent cell grows the tape by the same
value 1. -/
theorem cdecRule : Obligations.CdecRule :=
  ⟨decode_encode (i := .cdec) rfl, fun _ =>
    ⟨exec_cdec_of_lt, exec_absent_of_room (.inr rfl), exec_absent_of_full (.inr rfl)⟩⟩

end Sys2Proof.Machine
end

section
/-! PROOFS. The output instruction (43_output.md R73): one equation for each side of the current cell's existence. -/

namespace Sys2Proof.Machine

section
variable {s : State}

/-! ### Reading the current cell (60_exceptions.md R86) -/

/-- With an existing cell, an instruction that reads the current cell runs with its value. -/
theorem withCurrentCell_of_lt (use : Byte → Answer) (h : s.dp < s.tape.length) :
    withCurrentCell s use = use s.tape[s.dp] := by
  simp only [withCurrentCell, State.currentCell_of_lt h]

/-- With an absent cell, an instruction that reads the current cell is fault entry, whatever it would do with a value. -/
theorem withCurrentCell_of_absent (use : Byte → Answer) (h : s.tape.length ≤ s.dp) :
    withCurrentCell s use = .next (s.raiseFault .absentCellRead) := by
  simp only [withCurrentCell, s.currentCell_eq_none_iff.mpr h, trap_eq]

/-! ### OUT -/

/-- On an existing cell OUT completes with the cell's value emitted. -/
theorem exec_out_of_lt (h : s.dp < s.tape.length) : exec .out s = .next (s.emit s.tape[s.dp]).advance :=
  withCurrentCell_of_lt (fun v => complete (s.emit v)) h

/-- On an absent cell OUT is fault entry: nothing is emitted. -/
theorem exec_out_of_absent (h : s.tape.length ≤ s.dp) : exec .out s = .next (s.raiseFault .absentCellRead) :=
  withCurrentCell_of_absent (fun v => complete (s.emit v)) h

end

/-- Settles O15: the byte is OUT's encoding, and the two clauses are OUT's two equations, with the next states written
out. -/
theorem outRule : Obligations.OutRule :=
  ⟨decode_encode (i := .out) rfl, fun _ => ⟨exec_out_of_lt, exec_out_of_absent⟩⟩

end Sys2Proof.Machine
end

section
/-! PROOFS. The conditional jumps (44_jump.md R74, R75): one equation for each outcome of the zero test, where a jump that
is taken is left to the answer of its scan (`jumpTo`). -/

namespace Sys2Proof.Machine

/-- The zero test of the jumps is equality with 0. -/
@[simp] theorem cellIsZero_iff (v : Byte) : cellIsZero v = true ↔ v = 0#8 := by simp [cellIsZero]

section
variable {s : State}

/-! ### The end of a jump that is taken -/

/-- With a match, the jump lands just past it. -/
theorem jumpTo_of_found {r : ScanResult} (dir : ScanDir) {m : Nat} (h : r = .found m) :
    jumpTo dir s r = .next (s.setPc m).advance := by
  rw [h]; rfl

/-- Without a match, the jump is fault entry with the direction of its scan. -/
theorem jumpTo_of_unmatched {r : ScanResult} (dir : ScanDir) (h : r = .unmatched) :
    jumpTo dir s r = .next (s.raiseFault (.unmatchedBracket dir)) := by
  rw [h]; rfl

/-! ### JFZ -/

/-- On an absent cell JFZ is fault entry: no scan is made. -/
theorem exec_jfz_of_absent (h : s.tape.length ≤ s.dp) : exec .jfz s = .next (s.raiseFault .absentCellRead) :=
  withCurrentCell_of_absent _ h

/-- On a nonzero cell JFZ falls through. -/
theorem exec_jfz_of_ne_zero (h : s.dp < s.tape.length) (hv : s.tape[s.dp] ≠ 0#8) : exec .jfz s = .next s.advance := by
  simp [exec, execJfz, withCurrentCell_of_lt _ h, hv]

/-- On a zero cell JFZ is taken, by the forward scan from its own bracket. -/
theorem exec_jfz_of_eq_zero (h : s.dp < s.tape.length) (hv : s.tape[s.dp] = 0#8) :
    exec .jfz s = jumpTo .forward s (scanForward s.prog s.pc) := by
  simp [exec, execJfz, withCurrentCell_of_lt _ h, hv]

/-! ### JBNZ -/

/-- On an absent cell JBNZ is fault entry: no scan is made. -/
theorem exec_jbnz_of_absent (h : s.tape.length ≤ s.dp) : exec .jbnz s = .next (s.raiseFault .absentCellRead) :=
  withCurrentCell_of_absent _ h

/-- On a zero cell JBNZ falls through. -/
theorem exec_jbnz_of_eq_zero (h : s.dp < s.tape.length) (hv : s.tape[s.dp] = 0#8) : exec .jbnz s = .next s.advance := by
  simp [exec, execJbnz, withCurrentCell_of_lt _ h, hv]

/-- On a nonzero cell JBNZ is taken, by the backward scan from its own bracket. -/
theorem exec_jbnz_of_ne_zero (h : s.dp < s.tape.length) (hv : s.tape[s.dp] ≠ 0#8) :
    exec .jbnz s = jumpTo .backward s (scanBackward s.prog s.pc) := by
  simp [exec, execJbnz, withCurrentCell_of_lt _ h, hv]

end

/-- Settles O18: the byte is JFZ's encoding; the zero test picks the equation, and on a zero cell the answer of the forward
scan picks the end of the jump. -/
theorem jfzRule : Obligations.JfzRule := by
  refine ⟨decode_encode (i := .jfz) rfl, fun s => ⟨exec_jfz_of_absent, fun h => ⟨exec_jfz_of_ne_zero h, fun hv => ?taken⟩⟩⟩
  case taken =>
    rw [exec_jfz_of_eq_zero h hv]
    exact ⟨fun _ => jumpTo_of_found .forward, jumpTo_of_unmatched .forward⟩

/-- Settles O19: the byte is JBNZ's encoding; the zero test picks the equation, and on a nonzero cell the answer of the
backward scan picks the end of the jump. -/
theorem jbnzRule : Obligations.JbnzRule := by
  refine ⟨decode_encode (i := .jbnz) rfl, fun s => ⟨exec_jbnz_of_absent, fun h => ⟨exec_jbnz_of_eq_zero h, fun hv => ?taken⟩⟩⟩
  case taken =>
    rw [exec_jbnz_of_ne_zero h hv]
    exact ⟨fun _ => jumpTo_of_found .backward, jumpTo_of_unmatched .backward⟩

end Sys2Proof.Machine
end

section
/-! PROOFS. The faults (60_exceptions.md R83, R86, R91): R83's table as a condition on the instruction and the state,
and fault entry under exactly that condition. -/

namespace Sys2Proof.Machine

open Sys2Proof.Safety

/-! ### The five faults -/

@[simp] theorem EngineFault.cause_ne_none (f : EngineFault) : f.cause ≠ .none := by
  cases f <;> exact nofun

/-- Some fault has a property exactly when a row of R83's table has it, UnmatchedBracket's row once for each scan. -/
theorem EngineFault.exists_iff {p : EngineFault → Prop} :
    (∃ f, p f) ↔ p .pointerUnderflow ∨ p (.unmatchedBracket .forward) ∨ p (.unmatchedBracket .backward) ∨
      p .absentCellRead ∨ p .pointerOverflow ∨ p .tapeOverflow := by
  constructor
  · rintro ⟨_ | ⟨_ | _⟩ | _ | _ | _, h⟩ <;> simp [h]
  · rintro (h | h | h | h | h | h) <;> exact ⟨_, h⟩

/-- R83's table: the instructions that raise a fault, and the condition they raise it under. -/
def FaultCondition (i : Instr) (s : State) : EngineFault → Prop
  | .pointerUnderflow => i = .pdec ∧ s.dp = 0
  | .unmatchedBracket .forward => i = .jfz ∧ s.currentCell = some 0#8 ∧ scanForward s.prog s.pc = .unmatched
  | .unmatchedBracket .backward =>
    i = .jbnz ∧ (∃ v, s.currentCell = some v ∧ v ≠ 0#8) ∧ scanBackward s.prog s.pc = .unmatched
  | .absentCellRead => (i = .out ∨ i = .jfz ∨ i = .jbnz) ∧ s.tape.length ≤ s.dp
  | .pointerOverflow => i = .pinc ∧ s.params.dpMax = some s.dp
  | .tapeOverflow =>
    (i = .cinc ∨ i = .cdec) ∧ s.tape.length ≤ s.dp ∧ s.params.tapeMax = some s.tape.length

/-- The value read at `dp` is the cell that stands there. -/
theorem State.getElem_of_currentCell {s : State} {v : Byte} (h : s.currentCell = some v) :
    s.tape[s.dp]'(State.lt_of_currentCell h) = v :=
  Option.some.inj ((State.currentCell_of_lt (State.lt_of_currentCell h)).symm.trans h)

section
variable {i : Instr} {s t : State} {f : EngineFault}

/-! ### An instruction faults exactly under its condition -/

/-- OUT, JFZ and JBNZ on an absent cell are fault entry. -/
theorem exec_reader_of_absent (hi : i = .out ∨ i = .jfz ∨ i = .jbnz) (h : s.tape.length ≤ s.dp) :
    exec i s = .next (s.raiseFault .absentCellRead) := by
  rcases hi with rfl | rfl | rfl
  · exact exec_out_of_absent h
  · exact exec_jfz_of_absent h
  · exact exec_jbnz_of_absent h

theorem exec_eq_raiseFault_of_faultCondition (h : FaultCondition i s f) : exec i s = .next (s.raiseFault f) := by
  match f, h with
  | .pointerUnderflow, ⟨hi, h0⟩ => exact hi ▸ exec_pdec_of_eq_zero h0
  | .unmatchedBracket .forward, ⟨hi, hc, hr⟩ =>
    rw [hi, exec_jfz_of_eq_zero (State.lt_of_currentCell hc) (State.getElem_of_currentCell hc)]
    exact jumpTo_of_unmatched .forward hr
  | .unmatchedBracket .backward, ⟨hi, ⟨v, hc, hv⟩, hr⟩ =>
    rw [hi, exec_jbnz_of_ne_zero (State.lt_of_currentCell hc) (by rwa [State.getElem_of_currentCell hc])]
    exact jumpTo_of_unmatched .backward hr
  | .absentCellRead, ⟨hi, habs⟩ => exact exec_reader_of_absent hi habs
  | .pointerOverflow, ⟨hi, hmax⟩ => exact hi ▸ exec_pinc_of_eq_dpMax hmax
  | .tapeOverflow, ⟨hi, habs, hfull⟩ => exact exec_absent_of_full hi habs hfull

/-- An instruction that takes a state that is not `Faulted` to one that is has met the condition of a fault, and its
answer is fault entry with that fault. -/
theorem faultCondition_of_exec_faulted (hs : s.runState ≠ .faulted) (h : exec i s = .next t)
    (ht : t.runState = .faulted) : ∃ f, FaultCondition i s f ∧ t = s.raiseFault f := by
  have he := exec_effect i s
  rw [h] at he
  cases he
  case pincOverflow hmax => exact ⟨.pointerOverflow, ⟨rfl, hmax⟩, rfl⟩
  case pdecUnderflow h0 => exact ⟨.pointerUnderflow, ⟨rfl, h0⟩, rfl⟩
  case cincOverflow hc hfull => exact ⟨.tapeOverflow, ⟨.inl rfl, s.currentCell_eq_none_iff.mp hc, hfull⟩, rfl⟩
  case cdecOverflow hc hfull => exact ⟨.tapeOverflow, ⟨.inr rfl, s.currentCell_eq_none_iff.mp hc, hfull⟩, rfl⟩
  case absent hc hi => exact ⟨.absentCellRead, ⟨hi, s.currentCell_eq_none_iff.mp hc⟩, rfl⟩
  case jfzUnmatched hc hr => exact ⟨.unmatchedBracket .forward, ⟨rfl, hc, hr⟩, rfl⟩
  case jbnzUnmatched v hc hv hr => exact ⟨.unmatchedBracket .backward, ⟨rfl, ⟨v, hc, hv⟩, hr⟩, rfl⟩
  case pinc | pdec | cincWrite | cincAppend | cdecWrite | cdecAppend | out | jfzFall | jfzJump | jbnzFall | jbnzJump
      | nopin | nop =>
    exact absurd ht hs

/-- Outside `Faulted` an instruction raises a cause exactly when it meets the condition of a fault with that cause. -/
theorem raises_iff {c : FaultCause} (hs : s.runState ≠ .faulted) :
    Raises i s c ↔ ∃ f, f.cause = c ∧ FaultCondition i s f := by
  constructor
  · rintro ⟨t, hexec, ht, rfl⟩
    obtain ⟨f, hf, rfl⟩ := faultCondition_of_exec_faulted hs hexec ht
    exact ⟨f, rfl, hf⟩
  · rintro ⟨f, rfl, hf⟩
    exact ⟨s.raiseFault f, exec_eq_raiseFault_of_faultCondition hf, rfl, rfl⟩

/-- Of the faults an instruction raises, only JBNZ's unmatched bracket has the direction backward. -/
theorem FaultCondition.dir_eq_backward_iff (h : FaultCondition i s f) :
    f.dir = .backward ↔ i = .jbnz ∧ f.cause = .unmatchedBracket := by
  match f, h with
  | .unmatchedBracket .forward, ⟨hi, _⟩ => simp [EngineFault.dir, hi]
  | .unmatchedBracket .backward, ⟨hi, _⟩ => simp [EngineFault.dir, EngineFault.cause, hi]
  | .pointerUnderflow, _ | .absentCellRead, _ | .pointerOverflow, _ | .tapeOverflow, _ =>
    simp [EngineFault.dir, EngineFault.cause]

end

/-! ### What a fault records -/

/-- Settles O32: the new state is `raiseFault` on the old one, with a fault whose condition holds. -/
theorem faultEntryChangesOnlyTheRecord : Obligations.FaultEntryChangesOnlyTheRecord := by
  intro i s t hs hexec ht
  obtain ⟨f, hf, rfl⟩ := faultCondition_of_exec_faulted hs hexec ht
  exact ⟨rfl, f.cause_ne_none, hf.dir_eq_backward_iff⟩

/-- Settles O30: a cause is raised exactly under the conditions of the rows of R83's table that have it, and what is
recorded and kept is read off fault entry. -/
theorem faultListIsComplete : Obligations.FaultListIsComplete := by
  refine ⟨fun i s hs => ⟨?underflow, ?unmatched, ?absent, ?overflow, ?tape, ?none, fun t hexec ht => ?record⟩, ?codes⟩
  case underflow | unmatched | absent | overflow | tape =>
    simp [raises_iff hs, EngineFault.exists_iff, EngineFault.cause, FaultCondition]
  case none => simp [raises_iff hs]
  case record =>
    obtain ⟨f, hf, rfl⟩ := faultCondition_of_exec_faulted hs hexec ht
    exact ⟨rfl, hf.dir_eq_backward_iff, rfl, rfl⟩
  case codes => decide

/-! ### Absent cells (60_exceptions.md R86) -/

/-- Settles O31: the three readers are fault entry; CINC and CDEC are the growth controller, which raises another cause
or advances `pc`, where fault entry keeps it. -/
theorem absentCellReadFaults : Obligations.AbsentCellReadFaults := by
  refine fun s habs => ⟨fun i hi => exec_reader_of_absent hi habs, fun i hi heq => ?grows⟩
  rw [exec_of_absent hi habs] at heq
  rcases growTape_cases 1#8 s with ⟨-, hg⟩ | ⟨-, hg⟩
  · have hcause := congrArg State.faultCause (Host.Outcome.next.inj (hg.symm.trans heq))
    exact absurd hcause (by simp [EngineFault.cause, faultedFrom])
  · have hpc := congrArg State.pc (Host.Outcome.next.inj (hg.symm.trans heq))
    exact absurd hpc (by simp [faultedFrom])

end Sys2Proof.Machine
end

section
/-! PROOFS. The run strobe (70_reset_and_hazards.md R105): one equation for the strobe the engine accepts, and one for
every strobe it ignores. -/

namespace Sys2Proof.Machine

section
variable {s : State}

/-- R105, the strobe accepted. -/
theorem hostRun_of_accepted (hidle : s.runState = .idle) (hok : s.loadError = false) :
    hostRun s = s.setRunState .running := by
  rcases hostRun_cases s with ⟨-, -, h⟩ | ⟨hbusy | herr, -⟩
  · exact h
  · exact absurd hidle hbusy
  · exact absurd (hok.symm.trans herr) Bool.false_ne_true

/-- R105, the strobe ignored, for either of its two reasons. -/
theorem hostRun_of_ignored (hign : s.runState ≠ .idle ∨ s.loadError = true) : hostRun s = s := by
  rcases hostRun_cases s with ⟨hidle, hok, -⟩ | ⟨-, h⟩
  · rcases hign with hbusy | herr
    · exact absurd hidle hbusy
    · exact absurd (hok.symm.trans herr) Bool.false_ne_true
  · exact h

end

/-- Settles O48: a run event is `hostRun`, and R105's three cases are the accepted strobe and the two reasons to ignore
one. -/
theorem runStrobeRule : Obligations.RunStrobeRule :=
  fun _ => ⟨hostRun_of_accepted, fun _ herr => hostRun_of_ignored (.inr herr),
    fun hbusy => hostRun_of_ignored (.inl hbusy)⟩

end Sys2Proof.Machine
end

section
/-! PROOFS. Decode and encode are inverse (30_encoding.md sections 1 to 3): on the well-formed instructions one way, on all
256 bytes the other. -/

namespace Sys2Proof

/-- Settles O2: the decoder looks at one byte, and `decode_encode` says what it makes of it. -/
theorem decodeEncodeRoundTrip : Obligations.DecodeEncodeRoundTrip := by
  intro i rest hwf
  rw [decodeBytes_cons, decode_encode hwf]

/-- Whatever byte is decoded, the instruction is well formed: NOP is what is left when no row of the map takes it. -/
theorem decode_wf (b : Byte) : (decode b).wf = true := by
  by_cases hb : b ∈ Opcode.assigned
  · simp only [Opcode.assigned, List.mem_cons, List.not_mem_nil, or_false] at hb
    rcases hb with rfl | rfl | rfl | rfl | rfl | rfl | rfl | rfl <;> rfl
  · rw [decode_of_not_assigned hb]
    exact Instr.wf_nop_iff.mpr hb

/-- Settles O3: `encode_decode` gives the byte back, and an instruction with that byte is what `decode_encode` makes
of it. -/
theorem everyByteIsOneInstruction : Obligations.EveryByteIsOneInstruction := by
  refine fun b => ⟨decode_wf b, encode_decode b, ?unique⟩
  rintro i hwf rfl
  exact (decode_encode hwf).symm

end Sys2Proof
end

section
/-! PROOFS. What one instruction changes (20_memory.md section 4, 40_dispatch.md section 1): which fields every instruction
keeps, which instruction writes each of the others, and the frames that follow. -/

namespace Sys2Proof.Machine

open Sys2Proof.Safety

section
variable {i : Instr} {s t : State}

/-! ### Field by field -/

/-- No instruction writes the parameters, the program store or `load_error`. -/
theorem exec_keeps (h : exec i s = .next t) :
    t.params = s.params ∧ t.prog = s.prog ∧ t.loadError = s.loadError := by
  have he := exec_effect i s
  rw [h] at he
  cases he <;> exact ⟨rfl, rfl, rfl⟩

theorem exec_params (h : exec i s = .next t) : t.params = s.params := (exec_keeps h).1

theorem exec_prog (h : exec i s = .next t) : t.prog = s.prog :=
  have ⟨_, hprog, _⟩ := exec_keeps h
  hprog

theorem exec_progRead (h : exec i s = .next t) (a : Nat) : t.progRead a = s.progRead a := by
  rw [State.progRead, State.progRead, exec_prog h]

theorem exec_loadError (h : exec i s = .next t) : t.loadError = s.loadError :=
  have ⟨_, _, herr⟩ := exec_keeps h
  herr

/-- `dp` is written by PINC and PDEC alone, each moving it by one. -/
theorem exec_dp_cases (h : exec i s = .next t) :
    t.dp = s.dp ∨ (i = .pinc ∧ t.dp = s.dp + 1) ∨ (i = .pdec ∧ s.dp = t.dp + 1) := by
  have he := exec_effect i s
  rw [h] at he
  cases he
  case pinc => exact .inr (.inl ⟨rfl, rfl⟩)
  case pdec h0 => exact .inr (.inr ⟨rfl, (Nat.succ_pred_eq_of_ne_zero h0).symm⟩)
  all_goals exact .inl rfl

theorem exec_dp_of_ne (h : exec i s = .next t) (hpinc : i ≠ .pinc) (hpdec : i ≠ .pdec) : t.dp = s.dp := by
  rcases exec_dp_cases h with hkeep | ⟨hi, -⟩ | ⟨hi, -⟩
  · exact hkeep
  · exact absurd hi hpinc
  · exact absurd hi hpdec

/-- The output is written by OUT alone, which appends the current cell. -/
theorem exec_out_cases (h : exec i s = .next t) :
    t.out = s.out ∨ (i = .out ∧ ∃ v, s.currentCell = some v ∧ t.out = s.out ++ [v]) := by
  have he := exec_effect i s
  rw [h] at he
  cases he
  case out v hv => exact .inr ⟨rfl, v, hv, rfl⟩
  all_goals exact .inl rfl

theorem exec_out_of_ne (h : exec i s = .next t) (hout : i ≠ .out) : t.out = s.out := by
  rcases exec_out_cases h with hkeep | ⟨hi, -⟩
  · exact hkeep
  · exact absurd hi hout

/-- `run_state` and the fault record are written by fault entry alone; an instruction that completes keeps them. -/
theorem exec_record_cases (h : exec i s = .next t) :
    (∃ f, t = s.raiseFault f) ∨
      (t.runState = s.runState ∧ t.faultCause = s.faultCause ∧ t.faultPc = s.faultPc ∧ t.faultDir = s.faultDir) := by
  have he := exec_effect i s
  rw [h] at he
  cases he
  case pincOverflow | pdecUnderflow | cincOverflow | cdecOverflow | absent | jfzUnmatched | jbnzUnmatched =>
    exact .inl ⟨_, rfl⟩
  all_goals exact .inr ⟨rfl, rfl, rfl, rfl⟩

end

/-! ### The frames -/

/-- Settles O8: the two ways `dp` is written. -/
theorem onlyPointerInstructionsMoveDp : Obligations.OnlyPointerInstructionsMoveDp := by
  intro i s t hexec hmoved
  rcases exec_dp_cases hexec with hkeep | ⟨hi, hdp⟩ | ⟨hi, hdp⟩
  · exact absurd hkeep hmoved
  · exact .inl ⟨hi, hdp⟩
  · exact .inr ⟨hi, hdp⟩

/-- Settles O28: only CINC and CDEC write the tape, and each register has its own instructions. -/
theorem nonStoringInstructionsFrame : Obligations.NonStoringInstructionsFrame := by
  intro i s t hcinc hcdec hexec
  refine ⟨?tape, exec_progRead hexec, exec_params hexec, exec_hostScript hexec, exec_loadError hexec,
    exec_dp_of_ne hexec, exec_out_of_ne hexec, ?record⟩
  case tape =>
    rcases exec_tape_cases hexec with htape | ⟨hi, -⟩ | ⟨hi, -⟩
    · exact fun a => by rw [State.tapeRead, State.tapeRead, htape]
    · exact absurd hi (not_or.mpr ⟨hcinc, hcdec⟩)
    · exact absurd hi (not_or.mpr ⟨hcinc, hcdec⟩)
  case record =>
    rcases exec_record_cases hexec with ⟨f, rfl⟩ | hkeep
    · exact .inr ⟨rfl, rfl, rfl, rfl, rfl⟩
    · exact .inl hkeep

/-- Settles O29: a write goes to `dp`, where the current cell exists, an append to the end of the tape, where it does
not; fault entry does neither. -/
theorem storingInstructionsFrame : Obligations.StoringInstructionsFrame := by
  intro i s t hi hexec
  have ⟨hpinc, hpdec, hout⟩ : i ≠ .pinc ∧ i ≠ .pdec ∧ i ≠ .out := by rcases hi with rfl | rfl <;> decide
  refine ⟨?tape, exec_progRead hexec, exec_params hexec, exec_hostScript hexec, exec_loadError hexec,
    exec_dp_of_ne hexec hpinc hpdec, exec_out_of_ne hexec hout, ?record⟩
  case tape =>
    intro a ha
    rw [State.tapeRead, State.tapeRead]
    rcases exec_tape_cases hexec with htape | ⟨-, hlt, v, htape⟩ | ⟨-, hle, htape⟩
    · rw [htape]
    · rw [if_pos (show s.dp < s.tapeLen from hlt)] at ha
      rw [htape, Memory.read_write_other _ v ha]
    · rw [if_neg (show ¬ s.dp < s.tapeLen from Nat.not_lt.mpr hle)] at ha
      rw [htape, Memory.read_append_other _ 1#8 ha]
  case record =>
    rcases exec_record_cases hexec with ⟨f, rfl⟩ | hkeep
    · exact .inr ⟨rfl, rfl, rfl, fun _ => rfl⟩
    · exact .inl hkeep

end Sys2Proof.Machine
end

section
/-! PROOFS. The derived laws of the data-pointer ALU and of the cell ALU (41_pointer.md R69, 42_cell.md R72): what two
instructions in a row, or `n` of the same, leave. -/

namespace Sys2Proof.Machine

open Sys2Proof.Safety

/-! ### The data pointer (41_pointer.md R69) -/

/-- Where PINC completes, it has moved `dp` one up. -/
theorem exec_pinc_completes {s t : State} (h : exec .pinc s = .next t) (ht : t.runState ≠ .faulted) :
    t = (s.setDp (s.dp + 1)).advance := by
  by_cases hmax : s.params.dpMax = some s.dp
  · cases (exec_pinc_of_eq_dpMax hmax).symm.trans h
    exact absurd rfl ht
  · exact Host.Outcome.next.inj (h.symm.trans (exec_pinc_of_ne_dpMax hmax))

/-- Where PDEC completes, `dp` was not 0 and it has moved it one down. -/
theorem exec_pdec_completes {s t : State} (h : exec .pdec s = .next t) (ht : t.runState ≠ .faulted) :
    s.dp ≠ 0 ∧ t = (s.setDp (s.dp - 1)).advance := by
  by_cases h0 : s.dp = 0
  · cases (exec_pdec_of_eq_zero h0).symm.trans h
    exact absurd rfl ht
  · exact ⟨h0, Host.Outcome.next.inj (h.symm.trans (exec_pdec_of_ne_zero h0))⟩

/-- Settles O7: after a move that completes the other one completes too, and moves `dp` back. -/
theorem pointerMovesCancel : Obligations.PointerMovesCancel := by
  refine fun s t => ⟨fun hexec ht => ?pincFirst, fun hexec ht hroom => ?pdecFirst⟩
  case pincFirst =>
    obtain rfl := exec_pinc_completes hexec ht
    rw [exec_pdec_of_ne_zero (Nat.succ_ne_zero s.dp)]
    rfl
  case pdecFirst =>
    obtain ⟨h0, rfl⟩ := exec_pdec_completes hexec ht
    have hback : s.dp - 1 + 1 = s.dp := Nat.succ_pred_eq_of_ne_zero h0
    rw [exec_pinc_of_ne_dpMax hroom]
    simp [State.advance, State.setDp, hback]

/-! ### The current cell (42_cell.md R72) -/

/-- Two rewrites of an existing cell, the second undoing the first, leave only `pc` changed. -/
theorem updateCell_cancel {s t : State} {f g : Byte → Byte} (a : Byte) (hfg : ∀ v, g (f v) = v) (hs : s.dp < s.tape.length)
    (h : updateCell f a s = .next t) : updateCell g a t = .next { s with pc := s.pc + 2 } := by
  obtain rfl := Host.Outcome.next.inj (h.symm.trans (updateCell_of_lt f a hs))
  rw [updateCell_of_lt g a (by simpa using hs)]
  simp [State.advance, State.tapeWrite, Memory.write, hfg]

theorem cellSub1_cellAdd1 (v : Byte) : cellSub1 (cellAdd1 v) = v := by
  simp [cellSub1, cellAdd1, BitVec.add_assoc]

theorem cellAdd1_cellSub1 (v : Byte) : cellAdd1 (cellSub1 v) = v := by
  simp [cellSub1, cellAdd1, BitVec.add_assoc]

/-- Settles O12: both instructions rewrite the current cell, by operations of the cell ALU that are inverse. -/
theorem cellStepsCancel : Obligations.CellStepsCancel :=
  fun _ _ hs => ⟨updateCell_cancel 1#8 cellSub1_cellAdd1 hs, updateCell_cancel 1#8 cellAdd1_cellSub1 hs⟩

/-- An instruction that adds `k` modulo 256 to every existing current cell adds `k * n` in `n` repetitions. -/
theorem execTimes_of_adds {i : Instr} {k : Nat}
    (hadds : ∀ (u : State) (hu : u.dp < u.tape.length), exec i u =
      .next (u.tapeWrite u.dp (BitVec.ofNat 8 ((u.tape[u.dp].toNat + k) % 256))).advance)
    (n : Nat) (s : State) (hs : s.dp < s.tape.length) :
    execTimes i n s = .next
      { s with tape := s.tape.set s.dp (BitVec.ofNat 8 ((s.tape[s.dp].toNat + k * n) % 256)), pc := s.pc + n } := by
  induction n generalizing s with
  | zero =>
    have hsame : BitVec.ofNat 8 (s.tape[s.dp].toNat % 256) = s.tape[s.dp] :=
      (byte_add_ofNat _ 0).symm.trans (BitVec.add_zero _)
    simp [execTimes, hsame]
  | succ n ih =>
    have hsum : ∀ v : Nat, ((v + k) % 256 + k * n) % 256 = (v + k * (n + 1)) % 256 := by
      intro v
      rw [Nat.mod_add_mod, Nat.mul_succ, Nat.add_assoc, Nat.add_comm k]
    simp only [execTimes, hadds s hs]
    rw [ih _ (by simpa using hs)]
    simp [Memory.write, hsum, State.advance, State.tapeWrite, Nat.add_assoc, Nat.add_comm 1]

/-- Settles O13: CINC adds 1, CDEC adds 255. -/
theorem repeatedCellStepsCountModulo256 : Obligations.RepeatedCellStepsCountModulo256 := by
  intro n s hs
  have hinc := execTimes_of_adds (fun _ => exec_cinc_of_lt) n s hs
  rw [Nat.one_mul] at hinc
  exact ⟨hinc, execTimes_of_adds (fun _ => exec_cdec_of_lt) n s hs⟩

end Sys2Proof.Machine
end

section
/-! PROOFS. The output history (10_state.md R20): every operation the meanings share answers the same with values put
before it, so every instruction does. -/

namespace Sys2Proof.Machine

/-- `s` with the values `earlier` before its output history. -/
def State.prependOut (s : State) (earlier : List Byte) : State := { s with out := earlier ++ s.out }

/-- An answer with the values `earlier` before the output history of its next state. -/
def prependOut (earlier : List Byte) : Answer → Answer
  | .next t => .next (t.prependOut earlier)
  | .fault r => .fault r
  | .refused r => .refused r

section
variable (earlier : List Byte) (s : State)

theorem withCurrentCell_prependOut {use use' : Byte → Answer} (h : ∀ v, use' v = prependOut earlier (use v)) :
    withCurrentCell (s.prependOut earlier) use' = prependOut earlier (withCurrentCell s use) := by
  rcases hs : s.currentCell with _ | v
  · have ht : (s.prependOut earlier).currentCell = none := hs
    simp only [withCurrentCell, hs, ht]
    rfl
  · have ht : (s.prependOut earlier).currentCell = some v := hs
    simp only [withCurrentCell, hs, ht, h]

theorem updateCell_prependOut (f : Byte → Byte) (a : Byte) :
    updateCell f a (s.prependOut earlier) = prependOut earlier (updateCell f a s) := by
  rcases hs : s.currentCell with _ | v
  · have ht : (s.prependOut earlier).currentCell = none := hs
    simp only [updateCell, hs, ht, growTape, apply_ite (prependOut earlier)]
    rfl
  · have ht : (s.prependOut earlier).currentCell = some v := hs
    simp only [updateCell, hs, ht]
    rfl

theorem jumpTo_prependOut (dir : ScanDir) (r : ScanResult) :
    jumpTo dir (s.prependOut earlier) r = prependOut earlier (jumpTo dir s r) := by
  cases r <;> rfl

theorem complete_emit_prependOut (v : Byte) :
    complete ((s.prependOut earlier).emit v) = prependOut earlier (complete (s.emit v)) := by
  simp [prependOut, State.prependOut, State.emit, State.advance]

theorem exec_prependOut (i : Instr) : exec i (s.prependOut earlier) = prependOut earlier (exec i s) := by
  cases i with
  | pinc =>
    simp only [exec, execPinc, apply_ite (prependOut earlier)]
    rfl
  | pdec =>
    simp only [exec, execPdec, apply_ite (prependOut earlier)]
    rfl
  | cinc => exact updateCell_prependOut earlier s cellAdd1 1#8
  | cdec => exact updateCell_prependOut earlier s cellSub1 1#8
  | out => exact withCurrentCell_prependOut earlier s (complete_emit_prependOut earlier s)
  | jfz =>
    refine withCurrentCell_prependOut earlier s fun v => ?_
    rw [apply_ite (prependOut earlier), ← jumpTo_prependOut]
    rfl
  | jbnz =>
    refine withCurrentCell_prependOut earlier s fun v => ?_
    rw [apply_ite (prependOut earlier), ← jumpTo_prependOut]
    rfl
  | nopin => rfl
  | nop b => rfl

end

/-- Settles O17: the statement's two record updates are `prependOut`. -/
theorem outputHistoryIsNotRead : Obligations.OutputHistoryIsNotRead := by
  intro i s earlier
  refine (exec_prependOut earlier s i).trans ?_
  cases exec i s <;> rfl

end Sys2Proof.Machine
end

section
/-! PROOFS. The scans (44_jump.md R76 to R80): a scan's counter is the excess of one kind of bracket over the other in the
bytes visited, and the scan stops where that excess is first 0. What the counts say of a match, of the way back and of the
counter follows. -/

namespace Sys2Proof.Machine

open Sys2Proof.Safety

/-! ### The excess of brackets -/

/-- What one byte adds to the excess of `[` over `]`. -/
def weight (c : Byte) : Int := if c = Opcode.jfz then 1 else if c = Opcode.jbnz then -1 else 0

/-- The excess of `[` over `]` in a byte sequence. -/
def excess (bs : List Byte) : Int := opens bs - closes bs

@[simp] theorem weight_jfz : weight Opcode.jfz = 1 := rfl

@[simp] theorem weight_jbnz : weight Opcode.jbnz = -1 := rfl

theorem weight_of_ne {c : Byte} (hopen : c ≠ Opcode.jfz) (hclose : c ≠ Opcode.jbnz) : weight c = 0 := by
  rw [weight, if_neg hopen, if_neg hclose]

@[simp] theorem excess_nil : excess [] = 0 := rfl

theorem excess_append (as bs : List Byte) : excess (as ++ bs) = excess as + excess bs := by
  simp only [excess, opens, closes, List.count_append]
  omega

@[simp] theorem excess_cons (c : Byte) (bs : List Byte) : excess (c :: bs) = weight c + excess bs := by
  simp only [excess, opens, closes, weight, List.count_cons, beq_iff_eq]
  split_ifs with hopen hclose
  · exact absurd (hopen.symm.trans hclose) (by decide)
  all_goals push_cast; omega

theorem excess_eq_zero_iff (bs : List Byte) : excess bs = 0 ↔ opens bs = closes bs := by
  rw [excess]
  omega

/-! ### Slices of the program -/

section
variable {prog : List Byte} {a b k : Nat} {c : Byte}

/-- A slice of `n + 1` bytes. -/
theorem slice_add (prog : List Byte) (a n : Nat) : slice prog a (a + n) = (prog.drop a).take (n + 1) := by
  rw [slice, Nat.add_assoc, Nat.add_sub_cancel_left]

theorem length_slice_le (prog : List Byte) (a b : Nat) : (slice prog a b).length ≤ b + 1 - a :=
  List.length_take_le _ _

theorem slice_eq_nil (h : b < a) : slice prog a b = [] := by
  rw [slice, Nat.sub_eq_zero_of_le h, List.take_zero]

/-- A slice begins with the byte at its first index. -/
theorem slice_eq_cons (hc : prog[a]? = some c) (h : a ≤ b) : slice prog a b = c :: slice prog (a + 1) b := by
  have hlen : b + 1 - a = b + 1 - (a + 1) + 1 := by omega
  rw [slice, slice, hlen, List.drop_eq_getElem?_toList_append, hc]
  rfl

theorem slice_self (hc : prog[a]? = some c) : slice prog a a = [c] := by
  rw [slice_eq_cons hc (Nat.le_refl a), slice_eq_nil (Nat.lt_succ_self a)]

/-- A slice falls apart after any of its indices. -/
theorem slice_split (hak : a ≤ k) (hkb : k ≤ b) : slice prog a b = slice prog a k ++ slice prog (k + 1) b := by
  have hlen : b + 1 - a = (k + 1 - a) + (b + 1 - (k + 1)) := by omega
  have hdrop : (prog.drop a).drop (k + 1 - a) = prog.drop (k + 1) := by
    rw [List.drop_drop, Nat.add_sub_cancel' (by omega)]
  rw [slice, slice, slice, hlen, List.take_add, hdrop]

end

/-! ### The forward scan -/

/-- One byte of the forward loop, met with a counter that is positive, or 0 at a `[`: the counter is never negative after
it, and the loop stops exactly where it is 0. -/
theorem scanForwardFrom_cons {c : Byte} {d : Int} (cs : List Byte) (i : Nat) (hd : 0 ≤ d)
    (hstart : d = 0 → c = Opcode.jfz) :
    0 ≤ d + weight c ∧
      scanForwardFrom (c :: cs) i d =
        if d + weight c = 0 then .found i else scanForwardFrom cs (i + 1) (d + weight c) := by
  rw [scanForwardFrom]
  by_cases hopen : c = Opcode.jfz
  · rw [if_pos hopen, hopen, weight_jfz, if_neg (by omega)]
    exact ⟨by omega, rfl⟩
  · have hpos : d ≠ 0 := fun h0 => hopen (hstart h0)
    by_cases hclose : c = Opcode.jbnz
    · rw [if_neg hopen, if_pos hclose, hclose, weight_jbnz]
      exact ⟨by omega, rfl⟩
    · rw [if_neg hopen, if_neg hclose, weight_of_ne hopen hclose, Int.add_zero, if_neg hpos]
      exact ⟨hd, rfl⟩

/-- The forward loop stops where the counter it began with and the excess make 0, or runs off the end; at every byte it
passes they make at least 1. -/
theorem scanForwardFrom_cases (bs : List Byte) (i : Nat) (d : Int) (hd : 0 ≤ d)
    (hstart : d = 0 → bs.head? = some Opcode.jfz) :
    (∃ n, scanForwardFrom bs i d = .found (i + n) ∧ n < bs.length ∧ d + excess (bs.take (n + 1)) = 0 ∧
        ∀ k < n, 1 ≤ d + excess (bs.take (k + 1))) ∨
      (scanForwardFrom bs i d = .unmatched ∧ ∀ k < bs.length, 1 ≤ d + excess (bs.take (k + 1))) := by
  induction bs generalizing i d with
  | nil => exact .inr ⟨rfl, nofun⟩
  | cons c cs ih =>
    obtain ⟨hnext, hloop⟩ := scanForwardFrom_cons cs i hd fun h0 => Option.some.inj (hstart h0)
    rw [hloop]
    split_ifs with hstop
    · exact .inl ⟨0, rfl, Nat.succ_pos _, by simpa using hstop, nofun⟩
    · have hshift : ∀ k, d + excess ((c :: cs).take (k + 1 + 1)) = d + weight c + excess (cs.take (k + 1)) := by
        intro k
        rw [List.take_succ_cons, excess_cons, Int.add_assoc]
      have hhere : 1 ≤ d + excess ((c :: cs).take (0 + 1)) := by
        simp only [List.take_succ_cons, List.take_zero, excess_cons, excess_nil]
        omega
      rcases ih (i + 1) (d + weight c) hnext (fun h0 => absurd h0 hstop) with ⟨n, hres, hn, hzero, hpass⟩ | ⟨hres, hpass⟩
      · refine .inl ⟨n + 1, by rw [hres, Nat.add_assoc, Nat.add_comm 1], Nat.succ_lt_succ hn, by rw [hshift, hzero], ?_⟩
        rintro (_ | k) hk
        · exact hhere
        · exact (hpass k (Nat.lt_of_succ_lt_succ hk)).trans_eq (hshift k).symm
      · refine .inr ⟨hres, ?_⟩
        rintro (_ | k) hk
        · exact hhere
        · exact (hpass k (Nat.lt_of_succ_lt_succ hk)).trans_eq (hshift k).symm

/-- `ScanForward` from a `[`: the first index at which the excess is 0, or none; at every index passed it is at least
1. -/
theorem scanForward_cases {prog : Memory} {p : Nat} (hp : prog[p]? = some Opcode.jfz) :
    (∃ m, scanForward prog p = .found m ∧ p < m ∧ m < prog.length ∧ excess (slice prog p m) = 0 ∧
        ∀ k, p ≤ k → k < m → 1 ≤ excess (slice prog p k)) ∨
      (scanForward prog p = .unmatched ∧ ∀ k, p ≤ k → k < prog.length → 1 ≤ excess (slice prog p k)) := by
  have hslice : ∀ n, excess (slice prog p (p + n)) = 0 + excess ((prog.drop p).take (n + 1)) := by
    intro n
    rw [slice_add, Int.zero_add]
  rcases scanForwardFrom_cases (prog.drop p) p 0 le_rfl (fun _ => by rw [List.head?_drop, hp]) with
    ⟨n, hres, hn, hzero, hpass⟩ | ⟨hres, hpass⟩
  · rw [List.length_drop] at hn
    refine .inl ⟨p + n, hres, lt_of_scanForward_found hres hp, by omega, by rw [hslice, hzero], fun k hpk hk => ?_⟩
    obtain ⟨j, rfl⟩ := Nat.exists_eq_add_of_le hpk
    exact (hpass j (by omega)).trans_eq (hslice j).symm
  · refine .inr ⟨hres, fun k hpk hk => ?_⟩
    obtain ⟨j, rfl⟩ := Nat.exists_eq_add_of_le hpk
    exact (hpass j (by rw [List.length_drop]; omega)).trans_eq (hslice j).symm

/-! ### The backward scan -/

/-- One byte of the backward loop, met with a counter that is positive, or 0 at a `]`: the counter is never negative after
it, and the loop stops exactly where it is 0. -/
theorem backwardCount_eq {c : Byte} {d : Int} (hd : 0 ≤ d) (hstart : d = 0 → c = Opcode.jbnz) :
    0 ≤ d - weight c ∧ backwardCount c d = (d - weight c, decide (d - weight c = 0)) := by
  rw [backwardCount]
  by_cases hclose : c = Opcode.jbnz
  · rw [if_pos hclose, hclose, weight_jbnz, decide_eq_false (by omega)]
    exact ⟨by omega, rfl⟩
  · have hpos : d ≠ 0 := fun h0 => hclose (hstart h0)
    by_cases hopen : c = Opcode.jfz
    · rw [if_neg hclose, if_pos hopen, hopen, weight_jfz]
      exact ⟨by omega, rfl⟩
    · rw [if_neg hclose, if_neg hopen, weight_of_ne hopen hclose, Int.sub_zero, decide_eq_false hpos]
      exact ⟨hd, rfl⟩

/-- On the way back from a `]` at `p`, with the excess after the cursor, negated, as the counter: the byte at the cursor
`i` makes the counter the excess from `i` on, negated, and the loop stops there exactly where that is 0. -/
theorem backwardCount_slice {prog : Memory} {p i : Nat} {c : Byte} (hp : prog[p]? = some Opcode.jbnz) (hip : i ≤ p)
    (hc : prog.read i = some c) (hafter : i < p → excess (slice prog (i + 1) p) ≤ -1) :
    excess (slice prog i p) ≤ 0 ∧
      backwardCount c (-excess (slice prog (i + 1) p)) =
        (-excess (slice prog i p), decide (excess (slice prog i p) = 0)) := by
  have hcons : excess (slice prog i p) = weight c + excess (slice prog (i + 1) p) := by
    rw [slice_eq_cons hc hip, excess_cons]
  obtain ⟨hnonneg, hstart⟩ :
      0 ≤ -excess (slice prog (i + 1) p) ∧ (-excess (slice prog (i + 1) p) = 0 → c = Opcode.jbnz) := by
    rcases Nat.lt_or_eq_of_le hip with hlt | rfl
    · have hneg := hafter hlt
      omega
    · rw [slice_eq_nil (Nat.lt_succ_self i)]
      exact ⟨le_rfl, fun _ => Option.some.inj (hc.symm.trans hp)⟩
  obtain ⟨hnext, hcount⟩ := backwardCount_eq hnonneg hstart
  have hsub : -excess (slice prog (i + 1) p) - weight c = -excess (slice prog i p) := by omega
  rw [hsub] at hnext hcount
  simp only [Int.neg_eq_zero] at hcount
  exact ⟨by omega, hcount⟩

/-- The backward loop on the way back from a `]` at `p` stops at the first index at which the excess is 0, or runs off the
start; at every index it passes the excess is at most -1. -/
theorem scanBackwardFrom_cases {prog : Memory} {p i : Nat} (hp : prog[p]? = some Opcode.jbnz) (hip : i ≤ p)
    (hafter : i < p → excess (slice prog (i + 1) p) ≤ -1) :
    (∃ m, scanBackwardFrom prog i (-excess (slice prog (i + 1) p)) = .found m ∧ m ≤ i ∧ excess (slice prog m p) = 0 ∧
        ∀ k, m < k → k ≤ i → excess (slice prog k p) ≤ -1) ∨
      (scanBackwardFrom prog i (-excess (slice prog (i + 1) p)) = .unmatched ∧
        ∀ k ≤ i, excess (slice prog k p) ≤ -1) := by
  have hread := Memory.read_of_lt (Nat.lt_of_le_of_lt hip (Memory.lt_of_read hp))
  obtain ⟨hle, hcount⟩ := backwardCount_slice hp hip hread hafter
  induction i with
  | zero =>
    simp only [scanBackwardFrom, hread, hcount, decide_eq_true_eq]
    split_ifs with hstop
    · exact .inl ⟨0, rfl, le_rfl, hstop, fun k hk hk0 => absurd hk (Nat.not_lt.mpr hk0)⟩
    · have hhere : excess (slice prog 0 p) ≤ -1 := by omega
      exact .inr ⟨rfl, fun k hk => Nat.le_zero.mp hk ▸ hhere⟩
  | succ i ih =>
    simp only [scanBackwardFrom, hread, hcount, decide_eq_true_eq]
    split_ifs with hstop
    · exact .inl ⟨i + 1, rfl, le_rfl, hstop, fun k hk hki => absurd hk (Nat.not_lt.mpr hki)⟩
    · have hhere : excess (slice prog (i + 1) p) ≤ -1 := by omega
      have hpassed : ∀ {k}, k ≤ i + 1 → (k ≤ i → excess (slice prog k p) ≤ -1) → excess (slice prog k p) ≤ -1 :=
        fun hk hrest => (Nat.lt_or_eq_of_le hk).elim (fun hlt => hrest (Nat.le_of_lt_succ hlt)) (fun heq => heq ▸ hhere)
      have hip' := Nat.le_of_succ_le hip
      have hread' := Memory.read_of_lt (Nat.lt_of_le_of_lt hip' (Memory.lt_of_read hp))
      obtain ⟨hle', hcount'⟩ := backwardCount_slice hp hip' hread' fun _ => hhere
      rcases ih hip' (fun _ => hhere) hread' hle' hcount' with ⟨m, hres, hmi, hzero, hpass⟩ | ⟨hres, hpass⟩
      · exact .inl ⟨m, hres, Nat.le_succ_of_le hmi, hzero, fun k hmk hk => hpassed hk (hpass k hmk)⟩
      · exact .inr ⟨hres, fun k hk => hpassed hk (hpass k)⟩

/-- `ScanBackward` from a `]`: the last index before it at which the excess is 0, or none; at every index passed it is at
most -1. -/
theorem scanBackward_cases {prog : Memory} {p : Nat} (hp : prog[p]? = some Opcode.jbnz) :
    (∃ m, scanBackward prog p = .found m ∧ m < p ∧ excess (slice prog m p) = 0 ∧
        ∀ k, m < k → k ≤ p → excess (slice prog k p) ≤ -1) ∨
      (scanBackward prog p = .unmatched ∧ ∀ k ≤ p, excess (slice prog k p) ≤ -1) := by
  have hcases := scanBackwardFrom_cases hp le_rfl fun hlt => absurd hlt (Nat.lt_irrefl p)
  rw [slice_eq_nil (Nat.lt_succ_self p)] at hcases
  rcases hcases with ⟨m, hres, -, hzero, hpass⟩ | hnone
  · exact .inl ⟨m, hres, lt_of_scanBackward_found hres hp, hzero, hpass⟩
  · exact .inr hnone

/-! ### Where the scans stop (44_jump.md R78) -/

section
variable {prog : Memory} {p m : Nat}

theorem scanForward_found_iff (hp : prog[p]? = some Opcode.jfz) :
    scanForward prog p = .found m ↔
      p < m ∧ m < prog.length ∧ excess (slice prog p m) = 0 ∧ ∀ k, p < k → k < m → excess (slice prog p k) ≠ 0 := by
  rcases scanForward_cases hp with ⟨m₀, hres, hpm₀, hm₀, hzero₀, hpass⟩ | ⟨hres, hpass⟩
  · rw [hres, ScanResult.found.injEq]
    constructor
    · rintro rfl
      exact ⟨hpm₀, hm₀, hzero₀, fun k hpk hk h0 => absurd (hpass k hpk.le hk) (by omega)⟩
    · rintro ⟨hpm, -, hzero, hleast⟩
      rcases Nat.lt_trichotomy m₀ m with hlt | heq | hgt
      · exact absurd hzero₀ (hleast m₀ hpm₀ hlt)
      · exact heq
      · exact absurd (hpass m hpm.le hgt) (by omega)
  · rw [hres]
    refine ⟨nofun, fun ⟨hpm, hm, hzero, _⟩ => absurd (hpass m hpm.le hm) (by omega)⟩

theorem scanForward_unmatched_iff (hp : prog[p]? = some Opcode.jfz) :
    scanForward prog p = .unmatched ↔ ∀ m, p < m → m < prog.length → excess (slice prog p m) ≠ 0 := by
  rcases scanForward_cases hp with ⟨m₀, hres, hpm₀, hm₀, hzero₀, -⟩ | ⟨hres, hpass⟩
  · rw [hres]
    exact ⟨nofun, fun hnone => absurd hzero₀ (hnone m₀ hpm₀ hm₀)⟩
  · exact ⟨fun _ m hpm hm h0 => absurd (hpass m hpm.le hm) (by omega), fun _ => hres⟩

theorem scanBackward_found_iff (hp : prog[p]? = some Opcode.jbnz) :
    scanBackward prog p = .found m ↔
      m < p ∧ excess (slice prog m p) = 0 ∧ ∀ k, m < k → k < p → excess (slice prog k p) ≠ 0 := by
  rcases scanBackward_cases hp with ⟨m₀, hres, hm₀, hzero₀, hpass⟩ | ⟨hres, hpass⟩
  · rw [hres, ScanResult.found.injEq]
    constructor
    · rintro rfl
      exact ⟨hm₀, hzero₀, fun k hmk hk h0 => absurd (hpass k hmk hk.le) (by omega)⟩
    · rintro ⟨hm, hzero, hgreatest⟩
      rcases Nat.lt_trichotomy m₀ m with hlt | heq | hgt
      · exact absurd (hpass m hlt hm.le) (by omega)
      · exact heq
      · exact absurd hzero₀ (hgreatest m₀ hgt hm₀)
  · rw [hres]
    exact ⟨nofun, fun ⟨hm, hzero, _⟩ => absurd (hpass m hm.le) (by omega)⟩

theorem scanBackward_unmatched_iff (hp : prog[p]? = some Opcode.jbnz) :
    scanBackward prog p = .unmatched ↔ ∀ m, m < p → excess (slice prog m p) ≠ 0 := by
  rcases scanBackward_cases hp with ⟨m₀, hres, hm₀, hzero₀, -⟩ | ⟨hres, hpass⟩
  · rw [hres]
    exact ⟨nofun, fun hnone => absurd hzero₀ (hnone m₀ hm₀)⟩
  · exact ⟨fun _ m hm h0 => absurd (hpass m hm.le) (by omega), fun _ => hres⟩

end

/-- Settles O20: the scan stops at the first index with excess 0, and excess 0 is equality of the two counts. -/
theorem scanForwardFindsLeastBalance : Obligations.ScanForwardFindsLeastBalance := by
  intro prog p hp
  simp only [← excess_eq_zero_iff, Ne]
  refine ⟨fun m => scanForward_found_iff hp, fun m hfound => ?bracket, scanForward_unmatched_iff hp⟩
  case bracket =>
    obtain ⟨-, -, hread⟩ := scanForward_found hfound
    exact hread

/-- Settles O21: the scan stops at the last index before `p` with excess 0. -/
theorem scanBackwardFindsGreatestBalance : Obligations.ScanBackwardFindsGreatestBalance := by
  intro prog p hp
  simp only [← excess_eq_zero_iff, Ne]
  exact ⟨fun m => scanBackward_found_iff hp, fun m hfound => (scanBackward_found hfound).2, scanBackward_unmatched_iff hp⟩

/-! ### The way back (44_jump.md R78) -/

/-- Between two indices whose slice has excess 0, a later start has excess 0 exactly where the part before it has. -/
theorem excess_slice_eq_zero_iff {prog : List Byte} {a b k : Nat} (hab : excess (slice prog a b) = 0) (hak : a ≤ k)
    (hkb : k ≤ b) : excess (slice prog a k) = 0 ↔ excess (slice prog (k + 1) b) = 0 := by
  rw [slice_split hak hkb, excess_append] at hab
  omega

/-- Settles O22: over a slice of excess 0 no proper first part has excess 0 exactly when no proper last part has. -/
theorem scansAreInverse : Obligations.ScansAreInverse := by
  refine fun prog p m => ⟨fun hp hfound => ?back, fun hp hfound => ?forth⟩
  case back =>
    obtain ⟨-, -, hclose⟩ := scanForward_found hfound
    obtain ⟨hpm, -, hzero, hleast⟩ := (scanForward_found_iff hp).mp hfound
    refine (scanBackward_found_iff hclose).mpr ⟨hpm, hzero, fun k hpk hkm h0 => ?_⟩
    obtain ⟨k, rfl⟩ : ∃ j, k = j + 1 := Nat.exists_eq_succ_of_ne_zero (by omega)
    have hbefore := (excess_slice_eq_zero_iff hzero (by omega) (by omega)).mpr h0
    rcases Nat.lt_or_eq_of_le (Nat.le_of_lt_succ hpk) with hlt | rfl
    · exact hleast k hlt (by omega) hbefore
    · rw [slice_self hp] at hbefore
      exact absurd hbefore (by decide)
  case forth =>
    obtain ⟨-, hopen⟩ := scanBackward_found hfound
    obtain ⟨hmp, hzero, hgreatest⟩ := (scanBackward_found_iff hp).mp hfound
    refine (scanForward_found_iff hopen).mpr ⟨hmp, Memory.lt_of_read hp, hzero, fun k hmk hkp h0 => ?_⟩
    have hafter := (excess_slice_eq_zero_iff hzero hmk.le hkp.le).mp h0
    rcases Nat.lt_or_eq_of_le (Nat.succ_le_of_lt hkp) with hlt | rfl
    · exact hgreatest (k + 1) (by omega) hlt hafter
    · rw [slice_self hp] at hafter
      exact absurd hafter (by decide)

/-! ### The nesting counter (44_jump.md R80) -/

/-- Settles O23: where a scan has not stopped the excess has the sign of its bracket, and no more brackets are counted than
bytes visited. -/
theorem nestingCounterStaysPositive : Obligations.NestingCounterStaysPositive := by
  refine fun prog p k => ⟨fun hp hpk hk hpassed => ?forward, fun hp hkp hpassed => ?backward⟩
  case forward =>
    have hcounter : 1 ≤ excess (slice prog p k) := by
      rcases scanForward_cases hp with ⟨m, hres, -, -, -, hpass⟩ | ⟨-, hpass⟩
      · exact hpass k hpk (hpassed m hres)
      · exact hpass k hpk hk
    have hvisited := (List.count_le_length (a := Opcode.jfz)).trans (length_slice_le prog p k)
    rw [excess] at hcounter
    simp only [opens, closes] at hcounter ⊢
    omega
  case backward =>
    have hcounter : excess (slice prog k p) ≤ -1 := by
      rcases scanBackward_cases hp with ⟨m, hres, -, -, hpass⟩ | ⟨-, hpass⟩
      · exact hpass k (hpassed m hres) hkp
      · exact hpass k hkp
    have hvisited := (List.count_le_length (a := Opcode.jbnz)).trans (length_slice_le prog k p)
    rw [excess] at hcounter
    simp only [opens, closes] at hcounter ⊢
    omega

/-! ### Brackets without a partner (60_exceptions.md section 1) -/

/-- Settles O24: no index with equal counts is no match of the scan, which the jump turns into fault entry; where the zero
test falls through no scan is made. -/
theorem unbalancedScanFaults : Obligations.UnbalancedScanFaults := by
  intro s v hcell
  have hlt := State.lt_of_currentCell hcell
  have hv := State.getElem_of_currentCell hcell
  simp only [← excess_eq_zero_iff, Ne]
  refine ⟨fun hp => ⟨fun hz hnone => ?forward, fun hnz => exec_jfz_of_ne_zero hlt (hv ▸ hnz)⟩,
    fun hp => ⟨fun hnz hnone => ?backward, fun hz => exec_jbnz_of_eq_zero hlt (hv.trans hz)⟩⟩
  case forward =>
    rw [exec_jfz_of_eq_zero hlt (hv.trans hz)]
    exact jumpTo_of_unmatched .forward ((scanForward_unmatched_iff hp).mpr hnone)
  case backward =>
    rw [exec_jbnz_of_ne_zero hlt (hv ▸ hnz)]
    exact jumpTo_of_unmatched .backward ((scanBackward_unmatched_iff hp).mpr hnone)

/-! ### A scan from outside the program (20_memory.md R30) -/

/-- The backward loop with its cursor past the program reads no byte. -/
theorem scanBackwardFrom_outside {prog : Memory} {i : Nat} (h : prog.length ≤ i) (d : Int) :
    scanBackwardFrom prog i d = .outside := by
  have hread := (Memory.read_eq_none_iff prog i).mpr h
  cases i <;> simp only [scanBackwardFrom, hread]

/-- Settles O25: on a nonzero cell JBNZ is taken, and its scan starts where there is no byte. -/
theorem jbnzOutsideProgramStops : Obligations.JbnzOutsideProgramStops := by
  intro s v hcell hv hpc
  rw [exec_jbnz_of_ne_zero (State.lt_of_currentCell hcell) (by rwa [State.getElem_of_currentCell hcell]),
    scanBackward, scanBackwardFrom_outside hpc]
  rfl

end Sys2Proof.Machine
end

section
/-! PROOFS. The step and the host's events (40_dispatch.md R58 to R61, 70_reset_and_hazards.md R102 to R106): one
equation for each kind of turn, what a step that answers a next state has done, and what no step changes. -/

namespace Sys2Proof.Machine

open Sys2Proof.Safety

/-- `s` with the first `k` entries taken off the host's script. -/
def State.dropScript (s : State) (k : Nat) : State := { s with hostScript := s.hostScript.drop k }

section
variable {s t : State}

/-! ### The kinds of turn -/

theorem State.dropScript_of_nil (h : s.hostScript = []) (k : Nat) : s.dropScript k = s := by
  cases s
  simp_all [State.dropScript]

theorem State.dropScript_one_of_cons {x : Option HostEvent} {rest : List (Option HostEvent)}
    (h : s.hostScript = x :: rest) : s.dropScript 1 = { s with hostScript := rest } := by
  simp [State.dropScript, h]

/-- An event at the head of the script is delivered. -/
theorem step_of_event {e : HostEvent} (h : s.hostScript.head? = some (some e)) :
    step s = .next (hostEvent e (s.dropScript 1)) := by
  obtain ⟨rest, hs⟩ : ∃ rest, s.hostScript = some e :: rest := ⟨_, (List.cons_head?_tail h).symm⟩
  rw [s.dropScript_one_of_cons hs, step, turn, hs]

/-- With no event at the head of the script it is the engine's turn. -/
theorem step_of_silent (h : ∀ e, s.hostScript.head? ≠ some (some e)) : step s = engineTurn (s.dropScript 1) := by
  rw [step, turn]
  rcases hs : s.hostScript with _ | ⟨_ | e, rest⟩
  · rw [State.dropScript_of_nil hs]
  · rw [State.dropScript_one_of_cons hs]
  · exact absurd (by rw [hs]; rfl) (h e)

theorem engineTurn_of_fetch {b : Byte} (hrun : s.runState = .running) (hb : s.prog[s.pc]? = some b) :
    engineTurn s = exec (decode b) s := by
  have hfetch : s.fetch = some b := hb
  have hpc : ¬ s.progLen ≤ s.pc := Nat.not_le.mpr (Memory.lt_of_read hb)
  simp only [engineTurn, hrun, engineStep, if_neg hpc, hfetch]

theorem engineTurn_of_end (hrun : s.runState = .running) (hpc : s.progLen ≤ s.pc) :
    engineTurn s = .next (s.setRunState .halted) := by
  simp only [engineTurn, hrun, engineStep, if_pos hpc]

theorem engineTurn_of_not_running (hrun : s.runState ≠ .running) : engineTurn s = .next s := by
  cases h : s.runState with
  | running => exact absurd h hrun
  | idle | halted | faulted => simp only [engineTurn, h]

end

/-- Settles O50: the script's head is the event, and its tail is what stays. -/
theorem hostScriptIsDeliveredInOrder : Obligations.HostScriptIsDeliveredInOrder := by
  intro s e rest hs
  rw [step_of_event (by rw [hs]; rfl), State.dropScript_one_of_cons hs]

/-- Settles O33: either form of the script leaves the turn to the engine, which fetches the byte. -/
theorem stepRunsDecodedInstruction : Obligations.StepRunsDecodedInstruction := by
  refine fun s b hrun hb => ⟨fun hs => ?_, fun rest hs => ?_⟩
  · rw [step_of_silent (by simp [hs]), State.dropScript_of_nil hs, engineTurn_of_fetch hrun hb]
  · rw [step_of_silent (by simp [hs]), State.dropScript_one_of_cons hs]
    exact engineTurn_of_fetch hrun hb

/-- Settles O34: either form of the script leaves the turn to the engine, whose halt test holds. -/
theorem haltingStep : Obligations.HaltingStep := by
  refine fun s hrun hpc => ⟨fun hs => ?_, fun rest hs => ?_⟩
  · rw [step_of_silent (by simp [hs]), State.dropScript_of_nil hs, engineTurn_of_end hrun hpc]
    rfl
  · rw [step_of_silent (by simp [hs]), State.dropScript_one_of_cons hs]
    exact engineTurn_of_end hrun hpc

/-! ### A step always answers a next state (70_reset_and_hazards.md section 4) -/

/-- With `pc` at a byte of the program every instruction answers a next state: JBNZ's scan starts inside the store. -/
theorem exec_next_of_pc_lt (i : Instr) {s : State} (hpc : s.pc < s.prog.length) : ∃ t, exec i s = .next t := by
  have he := exec_effect i s
  generalize exec i s = a at he
  cases he
  case jbnzOutside hr => exact absurd hr (scanBackward_ne_outside hpc)
  all_goals exact ⟨_, rfl⟩

/-- Settles O36: of the kinds of step only an instruction could answer otherwise, and it is fetched at a byte of the
program. -/
theorem stepAlwaysAnswersNext : Obligations.StepAlwaysAnswersNext := by
  intro s
  rcases step_cases s with ⟨e, rest, -, h⟩ | ⟨r, rfl, ⟨-, h⟩ | ⟨-, -, h⟩ | ⟨b, -, hb, h⟩⟩
  · exact ⟨_, h⟩
  · exact ⟨_, h⟩
  · exact ⟨_, h⟩
  · rw [h]
    exact exec_next_of_pc_lt _ (Memory.lt_of_read hb)

/-! ### What a step has done -/

/-- What one host event does: a reset, a load refused or accepted, an accepted run strobe, or nothing. -/
theorem hostEvent_cases (e : HostEvent) (s : State) :
    (e = .rst ∧ hostEvent e s = start s.params s.hostScript) ∨
      (s.runState = .idle ∧ s.params.progMax = some s.progLen ∧ hostEvent e s = { s with loadError := true }) ∨
      (s.runState = .idle ∧ s.params.progMax ≠ some s.progLen ∧
        ∃ b, hostEvent e s = { s with prog := s.prog.append b }) ∨
      (s.runState = .idle ∧ s.loadError = false ∧ hostEvent e s = s.setRunState .running) ∨
      hostEvent e s = s := by
  cases e with
  | rst => exact .inl ⟨rfl, rfl⟩
  | load b =>
    rcases hostLoad_cases b s with hfull | ⟨hidle, hroom, h⟩ | ⟨-, h⟩
    · exact .inr (.inl hfull)
    · exact .inr (.inr (.inl ⟨hidle, hroom, b, h⟩))
    · exact .inr (.inr (.inr (.inr h)))
  | run =>
    rcases hostRun_cases s with hrun | ⟨-, h⟩
    · exact .inr (.inr (.inr (.inl hrun)))
    · exact .inr (.inr (.inr (.inr h)))

/-- Outside `Idle` only a reset does anything (70_reset_and_hazards.md R113). -/
theorem hostEvent_of_not_idle {e : HostEvent} {s : State} (he : e ≠ .rst) (hs : s.runState ≠ .idle) :
    hostEvent e s = s := by
  rcases hostEvent_cases e s with ⟨hrst, -⟩ | ⟨hidle, -⟩ | ⟨hidle, -⟩ | ⟨hidle, -⟩ | h
  · exact absurd hrst he
  · exact absurd hidle hs
  · exact absurd hidle hs
  · exact absurd hidle hs
  · exact h

/-- A step that answers `t` delivered the event at the head of the script, waited, halted at the end of the program, or
executed the instruction at `pc`, each after taking an entry off the script. -/
theorem step_next_cases {s t : State} (h : step s = .next t) :
    (∃ e, s.hostScript.head? = some (some e) ∧ t = hostEvent e (s.dropScript 1)) ∨
      (s.runState ≠ .running ∧ t = s.dropScript 1) ∨
      (s.runState = .running ∧ s.progLen ≤ s.pc ∧ t = (s.dropScript 1).setRunState .halted) ∨
      ∃ b, s.runState = .running ∧ s.progRead s.pc = some b ∧ exec (decode b) (s.dropScript 1) = .next t := by
  have htail : { s with hostScript := s.hostScript.tail } = s.dropScript 1 := by rw [State.dropScript, List.drop_one]
  rcases step_cases s with ⟨e, rest, hs, h'⟩ | ⟨r, rfl, ⟨hrun, h'⟩ | ⟨hrun, hend, h'⟩ | ⟨b, hrun, hb, h'⟩⟩
  · rw [← s.dropScript_one_of_cons hs] at h'
    exact .inl ⟨e, by rw [hs]; rfl, Host.Outcome.next.inj (h.symm.trans h')⟩
  · rw [htail] at h'
    exact .inr (.inl ⟨hrun, Host.Outcome.next.inj (h.symm.trans h')⟩)
  · rw [htail] at h'
    exact .inr (.inr (.inl ⟨hrun, hend, Host.Outcome.next.inj (h.symm.trans h')⟩))
  · rw [htail] at h'
    exact .inr (.inr (.inr ⟨b, hrun, hb, h'.symm.trans h⟩))

/-! ### What the host never writes (70_reset_and_hazards.md R102, R113) -/

/-- Settles O46: `hostReset` is `State.reset` with the two fields of the model's own kept. -/
theorem resetEventClearsEverything : Obligations.ResetEventClearsEverything := fun _ => rfl

/-- Settles O53: a load writes the program or `load_error`, a run strobe `run_state`, and both only in `Idle`. -/
theorem hostEventsFrame : Obligations.HostEventsFrame := by
  intro e s he
  have hbusy : s.runState ≠ .idle → hostEvent e s = s := hostEvent_of_not_idle he
  rcases hostEvent_cases e s with ⟨hrst, -⟩ | ⟨-, -, h⟩ | ⟨-, -, b, h⟩ | ⟨-, -, h⟩ | h
  · exact absurd hrst he
  all_goals
    rw [h] at hbusy ⊢
    exact ⟨fun _ => rfl, rfl, rfl, rfl, rfl, rfl, rfl, hbusy⟩

/-! ### What no step changes, and the output -/

/-- Settles O38: no event and no instruction writes the parameters. -/
theorem parametersNeverChange : Obligations.ParametersNeverChange := by
  intro s t hstep
  rcases step_next_cases hstep with ⟨e, -, rfl⟩ | ⟨-, rfl⟩ | ⟨-, -, rfl⟩ | ⟨b, -, -, hexec⟩
  · rcases hostEvent_cases e (s.dropScript 1) with ⟨-, h⟩ | ⟨-, -, h⟩ | ⟨-, -, b, h⟩ | ⟨-, -, h⟩ | h <;> rw [h] <;> rfl
  · rfl
  · rfl
  · exact exec_params (s := s.dropScript 1) hexec

/-- Settles O37: no instruction writes the program, and outside `Idle` no event but reset does anything. -/
theorem programStoreIsImmutable : Obligations.ProgramStoreIsImmutable := by
  refine ⟨fun i s t hexec => exec_prog hexec, fun s hs => ⟨fun t hscript hstep => ?step, fun e he => ?event⟩⟩
  case step =>
    rcases step_next_cases hstep with ⟨e, hhead, rfl⟩ | ⟨-, rfl⟩ | ⟨-, -, rfl⟩ | ⟨b, -, -, hexec⟩
    · have he : e ≠ .rst := by
        rintro rfl
        exact hscript hhead
      rw [hostEvent_of_not_idle (s := s.dropScript 1) he hs]
      rfl
    · rfl
    · rfl
    · exact exec_prog (s := s.dropScript 1) hexec
  case event => rw [hostEvent_of_not_idle he hs]

/-- Settles O16: a reset is the only event, and OUT the only instruction, that writes the output. -/
theorem outputOnlyGrows : Obligations.OutputOnlyGrows := by
  intro s t hstep
  rcases step_next_cases hstep with ⟨e, hhead, rfl⟩ | ⟨-, rfl⟩ | ⟨-, -, rfl⟩ | ⟨b, hrun, hb, hexec⟩
  · rcases hostEvent_cases e (s.dropScript 1) with ⟨rfl, h⟩ | ⟨-, -, h⟩ | ⟨-, -, b, h⟩ | ⟨-, -, h⟩ | h <;> rw [h]
    · exact .inr (.inr ⟨hhead, rfl⟩)
    all_goals exact .inl rfl
  · exact .inl rfl
  · exact .inl rfl
  · rcases exec_out_cases hexec with hkeep | ⟨hi, v, hv, hout⟩
    · exact .inl hkeep
    · have hbyte : b = Opcode.out := by rw [← encode_decode b, hi]; rfl
      subst hbyte
      exact .inr (.inl ⟨v, hrun, hb, hv, hout⟩)

end Sys2Proof.Machine
end

section
/-! PROOFS. The invariants (10_state.md R24): the reset state meets both, every kind of step keeps both, and so every
reachable state meets both. -/

namespace Sys2Proof.Safety

open Sys2Proof.Machine

/-! ### Capacities -/

theorem within_iff {max : Option Nat} {n : Nat} : within max n = true ↔ ∀ m, max = some m → n ≤ m := by
  cases max <;> simp [within]

theorem within_of_le {max : Option Nat} {n k : Nat} (h : within max n = true) (hk : k ≤ n) : within max k = true :=
  within_iff.mpr fun m hm => hk.trans (within_iff.mp h m hm)

/-- What is within a capacity and not at it has room for one more. -/
theorem within_succ {max : Option Nat} {n : Nat} (h : within max n = true) (hroom : max ≠ some n) :
    within max (n + 1) = true :=
  within_iff.mpr fun m hm => Nat.lt_of_le_of_ne (within_iff.mp h m hm) fun heq => hroom (heq ▸ hm)

/-! ### The fault record outside `Faulted` -/

/-- No fault is recorded. -/
def RecordClear (s : State) : Prop := s.faultCause = .none ∧ s.faultPc = 0 ∧ s.faultDir = .forward

/-- Outside `Faulted` the fault record is sound exactly when it is clear. -/
theorem faultRecordSound_iff {s : State} (hs : s.runState ≠ .faulted) : FaultRecordSound s ↔ RecordClear s := by
  constructor
  · rintro ⟨hcause, -, hpc, hdir⟩
    have hnone := hcause.mpr hs
    refine ⟨hnone, hpc hs, ?_⟩
    cases h : s.faultDir with
    | forward => rfl
    | backward => exact absurd (hnone.symm.trans (hdir h)) nofun
  · rintro ⟨hcause, hpc, hdir⟩
    exact ⟨iff_of_true hcause hs, fun h => absurd h hs, fun _ => hpc, fun h => absurd (hdir.symm.trans h) nofun⟩

theorem faultRecordSound_raiseFault {s : State} (f : EngineFault) (hpc : s.pc < s.progLen) :
    FaultRecordSound (s.raiseFault f) := by
  refine ⟨iff_of_false f.cause_ne_none (fun h => h rfl), fun _ => ⟨rfl, hpc⟩, fun h => absurd rfl h, fun h => ?_⟩
  cases f with
  | unmatchedBracket d => rfl
  | pointerUnderflow | absentCellRead | pointerOverflow | tapeOverflow => cases h

/-! ### The invariant in `Running` -/

/-- In `Running` the invariant says that `pc` and the capacities are met, no fault is recorded and `load_error` is 0. -/
theorem inv_running_iff {s : State} (hrun : s.runState = .running) :
    Inv s ↔ PcInProgram s ∧ WithinCapacity s ∧ RecordClear s ∧ s.loadError = false := by
  have hnf : s.runState ≠ .faulted := by simp [hrun]
  constructor
  · rintro ⟨hpc, hcap, -, hrec, herr, -⟩
    refine ⟨hpc, hcap, (faultRecordSound_iff hnf).mp hrec, Bool.eq_false_iff.mpr fun h => ?_⟩
    obtain ⟨hidle, -⟩ := herr h
    exact absurd (hrun.symm.trans hidle) nofun
  · rintro ⟨hpc, hcap, hrec, herr⟩
    exact ⟨hpc, hcap, fun h => absurd (hrun.symm.trans h) nofun, (faultRecordSound_iff hnf).mpr hrec,
      fun h => absurd (herr.symm.trans h) nofun, fun h => absurd (hrun.symm.trans h) nofun⟩

/-! ### Reset and the host's events -/

theorem inv_start (p : Params) (script : List (Option HostEvent)) : Inv (start p script) := by
  have hzero : ∀ max, within max 0 = true := fun max => within_iff.mpr fun _ _ => Nat.zero_le _
  have hidle : (start p script).runState ≠ .faulted := show RunState.idle ≠ .faulted by decide
  exact ⟨le_rfl, ⟨hzero _, hzero _, hzero _⟩, nofun, (faultRecordSound_iff hidle).mpr ⟨rfl, rfl, rfl⟩, nofun,
    fun _ => ⟨rfl, rfl, rfl, rfl⟩⟩

theorem faultExplained_of_none {s : State} (h : s.faultCause = .none) : FaultExplained s := by
  simp only [FaultExplained, h]

/-- Settles O41: at reset every number is 0 and no fault is recorded. -/
theorem resetMeetsTheInvariants : Obligations.ResetMeetsTheInvariants :=
  fun p script => ⟨inv_start p script, faultExplained_of_none rfl⟩

/-- Outside `Faulted` the invariant says that no cause is recorded. -/
theorem faultCause_eq_none_of_inv {s : State} (h : Inv s) (hs : s.runState ≠ .faulted) : s.faultCause = .none := by
  obtain ⟨-, -, -, ⟨hcause, -⟩, -⟩ := h
  exact hcause.mpr hs

theorem inv_hostEvent (e : HostEvent) {s : State} (h : Inv s) : Inv (hostEvent e s) := by
  rcases hostEvent_cases e s with ⟨-, he⟩ | ⟨hidle, hfull, he⟩ | ⟨hidle, hroom, b, he⟩ | ⟨hidle, hok, he⟩ | he <;> rw [he]
  · exact inv_start _ _
  · obtain ⟨hpc, hcap, hhalt, hrec, -, hfresh⟩ := h
    exact ⟨hpc, hcap, hhalt, hrec, fun _ => ⟨hidle, hfull⟩, hfresh⟩
  · obtain ⟨hpc, ⟨hprog, hdp, htape⟩, -, hrec, herr, hfresh⟩ := h
    have hlen : State.progLen { s with prog := s.prog.append b } = s.progLen + 1 := Memory.length_append s.prog b
    have hnf : s.runState ≠ .faulted := by simp [hidle]
    refine ⟨?pc, ⟨?prog, hdp, htape⟩, fun hh => absurd (hidle.symm.trans hh) nofun, ?record, fun hle => ?err, hfresh⟩
    case pc => rw [PcInProgram, hlen]; exact Nat.le_succ_of_le hpc
    case prog => rw [hlen]; exact within_succ hprog hroom
    case record =>
      exact (faultRecordSound_iff (s := { s with prog := s.prog.append b }) hnf).mpr ((faultRecordSound_iff hnf).mp hrec)
    case err => exact absurd (herr hle).2 hroom
  · obtain ⟨hpc, hcap, -, hrec, -, -⟩ := h
    have hclear : RecordClear s := (faultRecordSound_iff (by simp [hidle])).mp hrec
    exact (inv_running_iff rfl).mpr ⟨hpc, hcap, hclear, hok⟩
  · exact h

/-! ### The halting step and the instructions -/

theorem inv_halt {s : State} (h : Inv s) (hrun : s.runState = .running) (hend : s.progLen ≤ s.pc) :
    Inv (s.setRunState .halted) := by
  obtain ⟨hpc, hcap, hrec, herr⟩ := (inv_running_iff hrun).mp h
  have hhalted : (s.setRunState .halted).runState ≠ .faulted := show RunState.halted ≠ .faulted by decide
  exact ⟨hpc, hcap, fun _ => Nat.le_antisymm hpc hend, (faultRecordSound_iff hhalted).mpr hrec,
    fun h => absurd (herr.symm.trans h) nofun, nofun⟩

section
variable {i : Instr} {s t : State}

theorem inv_raiseFault (f : EngineFault) (h : Inv s) (hrun : s.runState = .running) (hpc : s.pc < s.progLen) :
    Inv (s.raiseFault f) := by
  obtain ⟨-, hcap, -, herr⟩ := (inv_running_iff hrun).mp h
  exact ⟨hpc.le, hcap, nofun, faultRecordSound_raiseFault f hpc, fun h => absurd (herr.symm.trans h) nofun, nofun⟩

/-- An instruction tests a capacity before it uses it up. -/
theorem exec_withinCapacity (hcap : WithinCapacity s) (h : exec i s = .next t) : WithinCapacity t := by
  obtain ⟨hprog, hdp, htape⟩ := hcap
  have he := exec_effect i s
  rw [h] at he
  cases he
  case pinc hroom => exact ⟨hprog, within_succ hdp hroom, htape⟩
  case pdec => exact ⟨hprog, within_of_le hdp (Nat.sub_le _ _), htape⟩
  case cincWrite | cdecWrite => exact ⟨hprog, hdp, by simpa [State.tapeLen] using htape⟩
  case cincAppend hroom | cdecAppend hroom =>
    exact ⟨hprog, hdp, by simpa [State.tapeLen] using within_succ htape hroom⟩
  all_goals exact ⟨hprog, hdp, htape⟩

/-- From a byte of the program an instruction that completes leads one past a byte of the program. -/
theorem exec_pcInProgram (hpc : s.pc < s.progLen) (h : exec i s = .next t) (ht : t.runState ≠ .faulted) :
    PcInProgram t := by
  rw [PcInProgram, State.progLen, exec_prog h]
  rcases exec_pc_cases h ht with ⟨heq, -⟩ | ⟨-, -, m, hm, heq⟩ | ⟨-, -, m, hm, heq⟩ <;> rw [heq]
  · exact hpc
  · obtain ⟨-, hlt, -⟩ := scanForward_found hm
    exact hlt
  · obtain ⟨-, hopen⟩ := scanBackward_found hm
    exact Memory.lt_of_read hopen

theorem inv_exec (h : Inv s) (hrun : s.runState = .running) (hpc : s.pc < s.progLen) (hexec : exec i s = .next t) :
    Inv t := by
  rcases exec_record_cases hexec with ⟨f, rfl⟩ | ⟨hrun', hcause', hfpc', hdir'⟩
  · exact inv_raiseFault f h hrun hpc
  · rw [hrun] at hrun'
    obtain ⟨-, hcap, ⟨hcause, hfpc, hdir⟩, herr⟩ := (inv_running_iff hrun).mp h
    exact (inv_running_iff hrun').mpr ⟨exec_pcInProgram hpc hexec (by simp [hrun']), exec_withinCapacity hcap hexec,
      ⟨hcause'.trans hcause, hfpc'.trans hfpc, hdir'.trans hdir⟩, (exec_loadError hexec).trans herr⟩

end

/-- Settles O39: the kinds of step, each with its own lemma; the script is no part of the invariant. -/
theorem stepKeepsInv : Obligations.StepKeepsInv := by
  intro s t hinv hstep
  have hdrop : Inv (s.dropScript 1) := hinv
  rcases step_next_cases hstep with ⟨e, -, rfl⟩ | ⟨-, rfl⟩ | ⟨hrun, hend, rfl⟩ | ⟨b, hrun, hb, hexec⟩
  · exact inv_hostEvent e hdrop
  · exact hdrop
  · exact inv_halt hdrop hrun hend
  · exact inv_exec hdrop hrun (Memory.lt_of_read hb) hexec

/-! ### The fault record explains itself (60_exceptions.md R91) -/

/-- Fault entry with a fault whose condition holds records what explains it: the condition is about the byte at `pc` and
items that fault entry keeps. -/
theorem faultExplained_raiseFault {s : State} {b : Byte} {f : EngineFault} (hb : s.progRead s.pc = some b)
    (h : FaultCondition (decode b) s f) : FaultExplained (s.raiseFault f) := by
  have hbyte : ∀ {i}, decode b = i → s.progRead s.pc = some (encode i) := fun hi => by rw [← hi, encode_decode, hb]
  match f, h with
  | .pointerUnderflow, ⟨hi, h0⟩ => exact ⟨hbyte hi, h0⟩
  | .unmatchedBracket .forward, ⟨hi, hc, hr⟩ => exact ⟨hbyte hi, hc, hr⟩
  | .unmatchedBracket .backward, ⟨hi, hc, hr⟩ => exact ⟨hbyte hi, hc, hr⟩
  | .absentCellRead, ⟨hi, habs⟩ => exact ⟨hi.imp hbyte (Or.imp hbyte hbyte), habs⟩
  | .pointerOverflow, ⟨hi, hmax⟩ => exact ⟨hbyte hi, hmax⟩
  | .tapeOverflow, ⟨hi, habs, hfull⟩ => exact ⟨hi.imp hbyte hbyte, habs, hfull⟩

theorem faultExplained_hostEvent (e : HostEvent) {s : State} (hinv : Inv s) (h : FaultExplained s) :
    FaultExplained (hostEvent e s) := by
  have hnone : s.runState = .idle → s.faultCause = .none := fun hidle =>
    faultCause_eq_none_of_inv hinv (by simp [hidle])
  rcases hostEvent_cases e s with ⟨-, he⟩ | ⟨hidle, -, he⟩ | ⟨hidle, -, b, he⟩ | ⟨hidle, -, he⟩ | he <;> rw [he]
  · exact faultExplained_of_none rfl
  · exact faultExplained_of_none (hnone hidle)
  · exact faultExplained_of_none (hnone hidle)
  · exact faultExplained_of_none (hnone hidle)
  · exact h

/-- Settles O40: from a state that has not faulted an instruction completes with the record clear or is fault entry under
its condition; every other step keeps the record and what explains it, or clears it. -/
theorem stepKeepsFaultExplained : Obligations.StepKeepsFaultExplained := by
  intro s t hinv hexpl hstep
  have hdrop : Inv (s.dropScript 1) := hinv
  have hnone : s.runState = .running → (s.dropScript 1).faultCause = .none := fun hrun =>
    faultCause_eq_none_of_inv hdrop (by simp [State.dropScript, hrun])
  rcases step_next_cases hstep with ⟨e, -, rfl⟩ | ⟨-, rfl⟩ | ⟨hrun, -, rfl⟩ | ⟨b, hrun, hb, hexec⟩
  · exact faultExplained_hostEvent e hdrop hexpl
  · exact hexpl
  · exact faultExplained_of_none (hnone hrun)
  · by_cases ht : t.runState = .faulted
    · have hs : (s.dropScript 1).runState ≠ .faulted := by simp [State.dropScript, hrun]
      obtain ⟨f, hf, rfl⟩ := faultCondition_of_exec_faulted hs hexec ht
      exact faultExplained_raiseFault hb hf
    · rcases exec_record_cases hexec with ⟨f, rfl⟩ | ⟨-, hcause, -⟩
      · exact absurd rfl ht
      · exact faultExplained_of_none (hcause.trans (hnone hrun))

/-! ### Reachable states -/

/-- What the first state meets and every step keeps, every reachable state meets. -/
theorem reaches_invariant {P : State → Prop} {s t : State} (hstep : ∀ u v, P u → Machine.step u = .next v → P v)
    (hs : P s) (h : Reaches s t) : P t := by
  induction h with
  | refl => exact hs
  | step _ hnext ih => exact hstep _ _ ih hnext

/-- Settles O42: the reset state meets both invariants, and every step keeps the two together. -/
theorem reachableStatesMeetTheInvariants : Obligations.ReachableStatesMeetTheInvariants := by
  intro p script t hreach
  refine reaches_invariant (P := fun u => Inv u ∧ FaultExplained u) ?keeps (resetMeetsTheInvariants p script) hreach
  case keeps =>
    rintro u v ⟨hinv, hexpl⟩ hstep
    exact ⟨stepKeepsInv u v hinv hstep, stepKeepsFaultExplained u v hinv hexpl hstep⟩

/-! ### The pointer and the tape (10_state.md R24 item 8) -/

/-- A running engine at the one byte `>`, with an empty tape. -/
def runningAtPinc : State := { State.reset with prog := [Opcode.pinc], runState := .running }

/-- Settles O43: PINC on an empty tape moves `dp` to 1 and leaves the tape. -/
theorem pointerMayPassTheTape : Obligations.PointerMayPassTheTape := by
  have hinv : Inv runningAtPinc := by decide
  have hstep : Machine.step runningAtPinc = .next (runningAtPinc.setDp 1).advance := rfl
  exact ⟨runningAtPinc, _, hinv, by decide, hstep, stepKeepsInv _ _ hinv hstep, by decide⟩

/-! ### Widths (10_state.md R12, 44_jump.md R80) -/

/-- `widthFor n` holds `n`. -/
theorem lt_two_pow_widthFor (n : Nat) : n < 2 ^ widthFor n := by
  rw [widthFor]
  split_ifs with h0
  · rw [h0]; decide
  · exact Nat.lt_log2_self

/-- No smaller width holds `n`. -/
theorem two_pow_le_of_lt_widthFor {n v : Nat} (hv : v < widthFor n) : 2 ^ v ≤ n := by
  rw [widthFor] at hv
  split_ifs at hv with h0
  · exact absurd hv (Nat.not_lt_zero v)
  · exact (Nat.pow_le_pow_right Nat.two_pos (Nat.le_of_lt_succ hv)).trans (Nat.log2_self_le h0)

/-- The recorded `fault_pc` is an index of the program, or 0. -/
theorem faultPc_le_progLen {s : State} (h : Inv s) : s.faultPc ≤ s.progLen := by
  obtain ⟨hpc, -, -, ⟨-, hfaulted, hclear, -⟩, -⟩ := h
  by_cases hs : s.runState = .faulted
  · obtain ⟨heq, -⟩ := hfaulted hs
    exact heq ▸ hpc
  · exact hclear hs ▸ Nat.zero_le _

/-- Settles O44: both widths are `widthFor` of `PROG_MAX`, which bounds the program's length, and that bounds `pc` and
`fault_pc`. -/
theorem registersFitTheirWidths : Obligations.RegistersFitTheirWidths := by
  intro s n w d hinv hmax hw hd
  obtain rfl : widthFor n = w := by simpa [pcWidth, hmax] using hw
  obtain rfl : widthFor n = d := by simpa [depthWidth, hmax] using hd
  have ⟨hpc, ⟨hprog, _⟩, _⟩ := hinv
  have hlen : s.progLen < 2 ^ widthFor n := (within_iff.mp hprog n hmax).trans_lt (lt_two_pow_widthFor n)
  exact ⟨⟨lt_two_pow_widthFor n, fun v => two_pow_le_of_lt_widthFor⟩, hpc.trans_lt hlen,
    (faultPc_le_progLen hinv).trans_lt hlen, hlen⟩

end Sys2Proof.Safety
end

section
/-! PROOFS. Runs of several steps (70_reset_and_hazards.md R102 to R108): turns that change nothing, the boot sequence, and
the end of a run. -/

namespace Sys2Proof.Safety

open Sys2Proof.Machine

section
variable {k j : Nat} {s t u : State}

/-! ### Steps of a run -/

/-- A run of `k + 1` steps begins with one. -/
theorem runsTo_succ_iff : RunsTo (k + 1) s t ↔ ∃ u, Machine.step s = .next u ∧ RunsTo k u t := by
  obtain ⟨u, hu⟩ := stepAlwaysAnswersNext s
  rw [runsTo_succ hu]
  exact ⟨fun h => ⟨u, hu, h⟩, fun ⟨v, hv, h⟩ => Host.Outcome.next.inj (hu.symm.trans hv) ▸ h⟩

theorem runsTo_unique (h : RunsTo k s t) (h' : RunsTo k s u) : t = u :=
  Host.Outcome.next.inj (h.symm.trans h')

/-- A run of `k + j` steps is one of `k` and then one of `j`. -/
theorem runsTo_add : RunsTo (k + j) s t ↔ ∃ u, RunsTo k s u ∧ RunsTo j u t := by
  induction k generalizing s with
  | zero => simp [runsTo_zero]
  | succ k ih =>
    rw [Nat.succ_add, runsTo_succ_iff]
    simp only [ih, runsTo_succ_iff]
    exact ⟨fun ⟨v, hv, u, hu, h⟩ => ⟨u, ⟨v, hv, hu⟩, h⟩, fun ⟨u, ⟨v, hv, hu⟩, h⟩ => ⟨v, hv, u, hu, h⟩⟩

/-- What the first state meets and every step keeps, the last state of a run meets. -/
theorem runsTo_invariant {P : State → Prop} (hstep : ∀ u v, P u → Machine.step u = .next v → P v) (hs : P s)
    (h : RunsTo k s t) : P t := by
  induction k generalizing s with
  | zero => exact runsTo_zero.mp h ▸ hs
  | succ k ih =>
    obtain ⟨u, hu, hrest⟩ := runsTo_succ_iff.mp h
    exact ih (hstep s u hs hu) hrest

/-- A step takes no entry but the first off the script, so none is put on it. -/
theorem noReset_of_step (hs : NoReset s.hostScript) (h : Machine.step s = .next t) : NoReset t.hostScript := by
  rw [step_hostScript h]
  exact fun hmem => hs (List.mem_of_mem_tail hmem)

/-! ### Turns that change nothing -/

@[simp] theorem dropScript_dropScript : (s.dropScript k).dropScript j = s.dropScript (k + j) := by
  simp [State.dropScript]

/-- If every turn of a run only takes an entry off the script, so does the run. -/
theorem runsTo_dropScript (hwait : ∀ j < k, Machine.step (s.dropScript j) = .next (s.dropScript (j + 1))) :
    RunsTo k s (s.dropScript k) := by
  induction k with
  | zero => exact runsTo_zero.mpr rfl
  | succ k ih =>
    have hlast := hwait k (Nat.lt_succ_self k)
    exact runsTo_add.mpr ⟨_, ih fun j hj => hwait j (Nat.lt_succ_of_lt hj),
      runsTo_succ_iff.mpr ⟨_, hlast, runsTo_zero.mpr rfl⟩⟩

/-- `Halted` and `Faulted`, in which the engine takes no step. -/
def Terminal (s : State) : Prop := s.runState = .halted ∨ s.runState = .faulted

/-- In a terminal state a turn without a reset changes nothing but the script. -/
theorem step_of_terminal (hs : Terminal s) (hscript : NoReset s.hostScript) :
    Machine.step s = .next (s.dropScript 1) := by
  by_cases hhead : ∃ e, s.hostScript.head? = some (some e)
  · obtain ⟨e, he⟩ := hhead
    have hrst : e ≠ .rst := by
      rintro rfl
      exact hscript (List.mem_of_mem_head? he)
    have hidle : s.runState ≠ .idle := by rcases hs with h | h <;> simp [h]
    rw [step_of_event he, hostEvent_of_not_idle (s := s.dropScript 1) hrst hidle]
  · have hrun : s.runState ≠ .running := by rcases hs with h | h <;> simp [h]
    rw [step_of_silent (not_exists.mp hhead), engineTurn_of_not_running (s := s.dropScript 1) hrun]

/-- From a terminal state a run without a reset changes nothing but the script. -/
theorem runsTo_of_terminal (hs : Terminal s) (hscript : NoReset s.hostScript) (k : Nat) :
    RunsTo k s (s.dropScript k) := by
  refine runsTo_dropScript fun j _ => ?_
  have hstep := step_of_terminal (s := s.dropScript j) hs fun hmem => hscript (List.mem_of_mem_drop hmem)
  rwa [dropScript_dropScript] at hstep

end

/-- Settles O54: a run without a reset is the one of `runsTo_of_terminal`, and a reset is delivered in every state. -/
theorem terminalStatesKeepEverything : Obligations.TerminalStatesKeepEverything := by
  intro s hs
  refine ⟨fun k t hscript hrun => runsTo_unique hrun (runsTo_of_terminal hs hscript k), fun rest t hhead hstep => ?reset⟩
  case reset =>
    have hrst := step_of_event (s := s) (e := .rst) (by rw [hhead]; rfl)
    rw [← Host.Outcome.next.inj (hrst.symm.trans hstep)]
    rfl

/-- Settles O57: an entry that says nothing leaves the turn to the engine, which waits in `Idle`. -/
theorem idleWaitsForTheHost : Obligations.IdleWaitsForTheHost := by
  intro k s hidle hsilent
  refine runsTo_dropScript fun j hj => ?_
  have hhead : ∀ e, (s.dropScript j).hostScript.head? ≠ some (some e) := by
    intro e he
    have hget : s.hostScript[j]? = some (some e) := List.head?_drop.symm.trans he
    have hmem : some e ∈ s.hostScript.take k := List.mem_of_getElem? ((List.getElem?_take_of_lt hj).trans hget)
    exact absurd (hsilent _ hmem) nofun
  have hrun : ((s.dropScript j).dropScript 1).runState ≠ .running := by simp [State.dropScript, hidle]
  rw [step_of_silent hhead, engineTurn_of_not_running hrun, dropScript_dropScript]

/-! ### The end of a run (70_reset_and_hazards.md R107) -/

/-- Without a reset a run stays in the terminal `run_state` it meets first. -/
theorem runState_eq_of_terminal_of_le {k j : Nat} {s t u : State} (hscript : NoReset s.hostScript) (hkj : k ≤ j)
    (ht : RunsTo k s t) (hu : RunsTo j s u) (hterm : Terminal t) : u.runState = t.runState := by
  obtain ⟨n, rfl⟩ := Nat.exists_eq_add_of_le hkj
  obtain ⟨t', ht', hrest⟩ := runsTo_add.mp hu
  obtain rfl := runsTo_unique ht ht'
  have hscript' : NoReset t.hostScript :=
    runsTo_invariant (P := fun v => NoReset v.hostScript) (fun _ _ => noReset_of_step) hscript ht
  rw [runsTo_unique hrest (runsTo_of_terminal hterm hscript' n)]
  rfl

/-- Settles O55: the invariant says where a halted engine stands, and whichever end came first the run would have
stayed in. -/
theorem runsEndOneWay : Obligations.RunsEndOneWay := by
  rintro k j s t u hinv hscript ⟨ht, hhalted, -⟩
  have hinvt : Inv t := runsTo_invariant stepKeepsInv hinv ht
  have ⟨_, _, hend, _⟩ := hinvt
  refine ⟨hend hhalted, faultCause_eq_none_of_inv hinvt (by simp [hhalted]), ?_⟩
  rintro ⟨hu, hfaulted, -⟩
  have hsame : u.runState = t.runState := by
    rcases Nat.le_total k j with hkj | hjk
    · exact runState_eq_of_terminal_of_le hscript hkj ht hu (.inl hhalted)
    · exact (runState_eq_of_terminal_of_le hscript hjk hu ht (.inr hfaulted)).symm
  rw [hfaulted, hhalted] at hsame
  cases hsame

/-! ### Reset and boot (70_reset_and_hazards.md R102, R104) -/

/-- What a host event does has nothing to do with the rest of the script. -/
theorem hostEvent_withScript (e : HostEvent) (s : State) (rest : List (Option HostEvent)) :
    hostEvent e { s with hostScript := rest } = { hostEvent e s with hostScript := rest } := by
  cases e with
  | rst => rfl
  | load b =>
    rcases hostLoad_cases b s with ⟨hidle, hfull, h⟩ | ⟨hidle, hroom, h⟩ | ⟨hbusy, h⟩ <;> simp only [hostEvent, h]
    · exact hostLoad_of_full (s := { s with hostScript := rest }) b hidle hfull
    · exact hostLoad_of_room (s := { s with hostScript := rest }) b hidle hroom
    · exact hostLoad_of_not_idle (s := { s with hostScript := rest }) b hbusy
  | run =>
    rcases hostRun_cases s with ⟨hidle, hok, h⟩ | ⟨hign, h⟩ <;> simp only [hostEvent, h]
    · exact hostRun_of_accepted (s := { s with hostScript := rest }) hidle hok
    · exact hostRun_of_ignored (s := { s with hostScript := rest }) hign

/-- A script that begins with `es` delivers them one a step, in order. -/
theorem runsTo_events (es : List HostEvent) (s : State) (rest : List (Option HostEvent)) :
    RunsTo es.length { s with hostScript := es.map some ++ rest }
      { es.foldl (fun u e => hostEvent e u) s with hostScript := rest } := by
  induction es generalizing s with
  | nil => exact runsTo_zero.mpr rfl
  | cons e es ih =>
    have hstep := hostScriptIsDeliveredInOrder { s with hostScript := (e :: es).map some ++ rest } e _ rfl
    rw [List.length_cons, runsTo_succ hstep, hostEvent_withScript e { s with hostScript := _ }, hostEvent_withScript e s]
    exact ih (hostEvent e s)

/-- The events of the boot sequence lead to the fresh running engine with the program: the loads fit the empty store, so
the run strobe meets no `load_error`. -/
theorem foldl_boot (bs : List Byte) (s : State) (hfits : ∀ m, s.params.progMax = some m → bs.length ≤ m) :
    (.rst :: (bs.map HostEvent.load ++ [.run])).foldl (fun u e => hostEvent e u) s =
      { State.reset with params := s.params, hostScript := s.hostScript, prog := bs, runState := .running } := by
  have hload := foldl_load_of_room bs (s := hostReset s) rfl fun m hm => (Nat.zero_add _).trans_le (hfits m hm)
  rw [List.foldl_cons, List.foldl_append, List.foldl_map]
  show hostRun (bs.foldl _ (hostReset s)) = _
  rw [hload]
  rfl

/-- Settles O51: the script is the events of the boot sequence, delivered one a step. -/
theorem bootSequence : Obligations.BootSequence := by
  intro bs s rest hfits
  have hrun := runsTo_events (.rst :: (bs.map HostEvent.load ++ [.run])) s rest
  rw [foldl_boot bs s hfits] at hrun
  simpa [Function.comp_def] using hrun

/-- Settles O52: after the reset both engines are the reset state with the same parameters and the same script. -/
theorem resetErasesHistory : Obligations.ResetErasesHistory := by
  intro k s s' t t' rest hparams ht ht'
  have hreset : ∀ v : State, Machine.step { v with hostScript := some .rst :: rest } = .next (start v.params rest) :=
    fun v => hostScriptIsDeliveredInOrder _ .rst rest rfl
  rw [runsTo_succ (hreset s)] at ht
  rw [runsTo_succ (hreset s'), ← hparams] at ht'
  have heq := runsTo_unique ht ht'
  exact ⟨congrArg State.observe heq, heq⟩

end Sys2Proof.Safety
end
